-- ==== Sys2Proof/Word.lean ====
section
/-! DEFINITION. The two bit patterns of the machine: bytes and 32-bit words (00_scope.md R6, R7). -/

namespace Sys2Proof

/-- One byte of an instruction or of a buffer; bit 0 is the least significant (R7). -/
abbrev Byte := BitVec 8

/-- A register value, an immediate or a data address: `XLEN` = 32 bits (R6, R8). -/
abbrev Word := BitVec 32

end Sys2Proof
end

