-- ==== Sys2Proof/Config.lean ====
section
/-! DEFINITION. The implementation parameters of 00_scope.md R6. `PROG_LEN` and `DATA_LEN` are set by the host and
are therefore fields of the two buffers in State; `PC_BITS` is the one parameter an implementation fixes. The spec
leaves no instruction's value open (41_datapath.md R115), so there is no free value here. -/

namespace Sys2Proof

/-- The named parameter an implementation chooses (R6, 92_eei_decisions.md D9): the width of the program counter,
by default 32. Only the host's LoadProgram and the invariants read it (log 2). -/
structure Params where
  pcBits : Nat := 32
deriving DecidableEq, Repr

/-- The longest program an implementation takes: `PROG_LEN` ≤ 2^`PC_BITS` − 1 (R6, D9). -/
def Params.maxProgLen (p : Params) : Nat := 2 ^ p.pcBits - 1

/-- The longest data segment: `DATA_LEN` ≤ 2^32 (R6, D10). -/
def maxDataLen : Nat := 2 ^ 32

/-- `NREGS`, the number of registers (R6, R20). -/
abbrev numRegs : Nat := 32

end Sys2Proof
end

