-- ==== Sys2Proof/Syntax.lean ====
section
/-! DEFINITION. The instruction set as syntax: the decoder's tags and the instructions with their operand fields
(30_encoding.md R61 to R64, 40_decoder.md R81). -/

namespace Sys2Proof

/-- The decoder's output: the closed tag set of 40_decoder.md R81. -/
inductive Tag where
  | halt | loadFromData | moveRegister | storeToData | loadImmediate | illegal
deriving DecidableEq, Repr

/-- An instruction with its operand fields (R61). A register operand is the index BYTE, 0 to 255: every value can
be encoded (R66), and the range check is made at execution (R106). An address is an unsigned and an immediate a
signed 32-bit pattern (R62). -/
inductive Instr where
  /-- HLT, opcode 0x00, format N (R130). -/
  | hlt
  /-- LOAD, opcode 0x01, format RA: destination register, data address (R150). -/
  | load (r : Byte) (addr : Word)
  /-- MOV, opcode 0x02, format RR: source register first, then destination (R141). -/
  | mov (src dst : Byte)
  /-- STOR, opcode 0x03, format RA: source register, data address (R151). -/
  | stor (r : Byte) (addr : Word)
  /-- LDIM, opcode 0x04, format RI: destination register, immediate (R140). -/
  | ldim (r : Byte) (imm : Word)
  /-- The Illegal tag with its opcode byte, 0x05 to 0xFF, format N (R131). It stands for the seven rows of the
  opcode table that together make this one tag (30_encoding.md, opening; log 1). -/
  | illegal (opcode : Byte)
deriving DecidableEq, Repr

/-- The tag an instruction belongs to (R64). -/
def Instr.tag : Instr → Tag
  | .hlt => .halt
  | .load _ _ => .loadFromData
  | .mov _ _ => .moveRegister
  | .stor _ _ => .storeToData
  | .ldim _ _ => .loadImmediate
  | .illegal _ => .illegal

/-- A register operand in the spec's assembler syntax, `rN` (R68). -/
def asmReg (r : Byte) : String := "r" ++ toString r.toNat

/-- The spec's assembler syntax, operands in encoding order, numbers in decimal (R68, D15; log 16). No machine
behaviour depends on it. -/
def Instr.asm : Instr → String
  | .hlt => "HLT"
  | .load r addr => "LOAD " ++ asmReg r ++ ", [" ++ toString addr.toNat ++ "]"
  | .mov src dst => "MOV " ++ asmReg src ++ ", " ++ asmReg dst
  | .stor r addr => "STOR " ++ asmReg r ++ ", [" ++ toString addr.toNat ++ "]"
  | .ldim r imm => "LDIM " ++ asmReg r ++ ", " ++ toString imm.toInt
  | .illegal b => ".byte " ++ toString b.toNat

end Sys2Proof
end

