-- ==== Sys2Proof/WellFormed.lean ====
section
/-! DEFINITION. Which terms of Instr are instructions of the machine. Operand fields have no illegal value at
decode time (30_encoding.md R66), so the one check is on the Illegal tag's opcode byte (R65). What a program must
meet to run without a fault (70_reset_and_hazards.md R259) is a matter of execution and stands in Safety.lean. -/

namespace Sys2Proof

/-- An instruction is well formed when its opcode byte belongs to its tag: an Illegal one carries 0x05 to 0xFF
(R65); the others carry no opcode of their own. -/
def Instr.wellFormed : Instr → Bool
  | .illegal b => decide (5 ≤ b.toNat)
  | .hlt => true
  | .load _ _ => true
  | .mov _ _ => true
  | .stor _ _ => true
  | .ldim _ _ => true

end Sys2Proof
end

