-- ==== Sys2Proof/Decode.lean ====
section
/-! DEFINITION. From bytes to instructions and back: byte order (20_memory.md R44), the decoder LUT (40_decoder.md
R80 to R84), operand extraction (30_encoding.md R60 to R63, 41_datapath.md R105), the opcode table's rows, the
encoder, and the host's question about one table word. -/

namespace Sys2Proof

/-- `le32(b0, b1, b2, b3)` is the concatenation b3, b2, b1, b0, with b0 least significant (R44). -/
def le32 (b0 b1 b2 b3 : Byte) : Word := b3 ++ b2 ++ b1 ++ b0

/-- Byte `k` of a word, bits 8k+7 to 8k (R44, R49). -/
def byteOf (v : Word) (k : Nat) : Byte := v.extractLsb' (8 * k) 8

/-- `bytes_le32(v)`: least significant byte first (R44). -/
def bytesLe32 (v : Word) : List Byte := [byteOf v 0, byteOf v 1, byteOf v 2, byteOf v 3]

/-- The decoder LUT `decode(b)`: bytes 0 to 4 are the five operations, every other byte is Illegal (R82). It reads
the opcode byte only (R80), has no state (R83) and never fails (R84). -/
def decodeTag (b : Byte) : Tag :=
  match b.toNat with
  | 0 => .halt
  | 1 => .loadFromData
  | 2 => .moveRegister
  | 3 => .storeToData
  | 4 => .loadImmediate
  | _ => .illegal

/-- The 3-bit output code `tag[2:0]` of the decoder block (R81, D16). -/
def Tag.code : Tag → BitVec 3
  | .halt => 0
  | .loadFromData => 1
  | .moveRegister => 2
  | .storeToData => 3
  | .loadImmediate => 4
  | .illegal => 5

/-- The instruction length in bytes, a function of the tag alone (R60, R63). -/
def Tag.len : Tag → Nat
  | .halt => 1
  | .loadFromData => 6
  | .moveRegister => 3
  | .storeToData => 6
  | .loadImmediate => 6
  | .illegal => 1

/-- Why a byte sequence holds no whole instruction. -/
inductive DecodeError where
  /-- There is no opcode byte at all: the end of the buffer (R101). -/
  | noBytes
  /-- The opcode's operand bytes run past the end (R104). -/
  | truncated (t : Tag)
deriving DecidableEq, Repr

/-- Decoding at the head of a byte sequence: the opcode's tag fixes how many bytes follow (R60), the fields are
read as formats N, RR, RA and RI lay them out (R61, R62), and the bytes after the instruction are handed back. -/
def decode : List Byte → Except DecodeError (Instr × List Byte)
  | [] => .error .noBytes
  | op :: rest =>
    match decodeTag op with
    | .halt => .ok (.hlt, rest)
    | .illegal => .ok (.illegal op, rest)
    | .moveRegister =>
      match rest with
      | src :: dst :: rest => .ok (.mov src dst, rest)
      | _ => .error (.truncated .moveRegister)
    | .loadFromData =>
      match rest with
      | r :: b2 :: b3 :: b4 :: b5 :: rest => .ok (.load r (le32 b2 b3 b4 b5), rest)
      | _ => .error (.truncated .loadFromData)
    | .storeToData =>
      match rest with
      | r :: b2 :: b3 :: b4 :: b5 :: rest => .ok (.stor r (le32 b2 b3 b4 b5), rest)
      | _ => .error (.truncated .storeToData)
    | .loadImmediate =>
      match rest with
      | r :: b2 :: b3 :: b4 :: b5 :: rest => .ok (.ldim r (le32 b2 b3 b4 b5), rest)
      | _ => .error (.truncated .loadImmediate)

/-- The bytes of an instruction, opcode first (R61, R64, R68). -/
def encode : Instr → List Byte
  | .hlt => [0x00]
  | .load r addr => 0x01 :: r :: bytesLe32 addr
  | .mov src dst => [0x02, src, dst]
  | .stor r addr => 0x03 :: r :: bytesLe32 addr
  | .ldim r imm => 0x04 :: r :: bytesLe32 imm
  | .illegal b => [b]

/-- A row of spec/opcode_table.json: byte 0 belongs to it when its masked bits are the pattern. -/
structure OpcodeRow where
  pattern : Byte
  mask : Byte
  tag : Tag
deriving DecidableEq, Repr

/-- The byte is one of the row's opcodes. -/
def OpcodeRow.covers (row : OpcodeRow) (b : Byte) : Bool := b &&& row.mask == row.pattern

/-- The twelve rows of spec/opcode_table.json, in its order. -/
def opcodeTable : List OpcodeRow :=
  [ ⟨0x00, 0xFF, .halt⟩, ⟨0x01, 0xFF, .loadFromData⟩, ⟨0x02, 0xFF, .moveRegister⟩,
    ⟨0x03, 0xFF, .storeToData⟩, ⟨0x04, 0xFF, .loadImmediate⟩,
    ⟨0x05, 0xFF, .illegal⟩, ⟨0x06, 0xFE, .illegal⟩, ⟨0x08, 0xF8, .illegal⟩, ⟨0x10, 0xF0, .illegal⟩,
    ⟨0x20, 0xE0, .illegal⟩, ⟨0x40, 0xC0, .illegal⟩, ⟨0x80, 0x80, .illegal⟩ ]

/-- The longest instruction, in bytes (R63). -/
def maxInstrLen : Nat := 6

/-- The bytes of an instruction that the opcode table numbers as one word `w` of `nbits` bits, bit 0 the least
significant of byte 0, continued with zeros up to the longest instruction. -/
def tableBytes (nbits w : Nat) : List Byte :=
  (List.range maxInstrLen).map fun k => BitVec.ofNat 8 ((w % 2 ^ nbits) >>> (8 * k))

/-- The instruction the decoder reads from a table word. -/
def decodeTableWord (nbits w : Nat) : Option Instr :=
  match decode (tableBytes nbits w) with
  | .ok (i, _) => some i
  | .error _ => none

end Sys2Proof
end

