-- ==== Sys2Proof/Machine/State.lean ====
section
/-! DEFINITION. The complete state of one core (10_state.md R36), its reset value (70_reset_and_hazards.md R250),
and the reasons a step could stop. -/

namespace Sys2Proof.Machine

/-- A byte buffer: the program buffer `P` or the data segment `D`, bytes 0 to `len` − 1 (R29, R30). Every one of
those bytes has a value. `cells` lists, with strictly rising addresses, the ones that differ from
`Memory.unlisted` (log 4). -/
structure Memory where
  len : Nat
  cells : List Host.Cell
deriving DecidableEq, Repr

/-- STATUS.state, bits 2:0 of STATUS (R31, R32). -/
inductive RunState where
  | ready | running | halted | exhausted | faulted
deriving DecidableEq, Repr

/-- The four faults of the core, the non-zero values of STATUS.cause (R31, R200). -/
inductive FaultCause where
  | illegalOpcode | truncatedInstruction | registerIndexOutOfRange | dataAddressOutOfBounds
deriving DecidableEq, Repr

/-- The STATUS register: the run state, and the fault cause with `none` for NONE (R31). The layout of its 8 bits is
`Status.toByte`. -/
structure Status where
  state : RunState
  cause : Option FaultCause
deriving DecidableEq, Repr

/-- The complete state of one core (R36). -/
structure State where
  /-- `x[0]` to `x[31]` (R20). -/
  regs : Vector Word numRegs
  /-- The program counter, an unsigned index into the program buffer (R25; log 2). -/
  pc : Nat
  /-- The program buffer `P`; its length is `PROG_LEN` (R29). -/
  prog : Memory
  /-- The data segment `D`; its length is `DATA_LEN` (R30). -/
  data : Memory
  /-- STATUS (R31). -/
  status : Status
deriving DecidableEq, Repr

/-- Reasons the MODEL stops with a fault: none. The four faults of the core are taken, as the spec describes: they
are next states whose STATUS says FAULTED (R108, R207; log 12). Nothing raises a value of this type. -/
inductive Fault
deriving DecidableEq, Repr

/-- Reasons the model has no meaning for an instruction. -/
inductive Refusal where
  /-- An instruction without a meaning yet, by its mnemonic. Safe: the model stops. No arm of exec raises it: every
  instruction has its meaning. -/
  | notModelled (mnemonic : String)
deriving DecidableEq, Repr

/-- A buffer with no bytes. -/
def Memory.empty : Memory := { len := 0, cells := [] }

/-- The state after reset: all registers zero, counter at 0, both buffers empty, STATUS = (READY, NONE) (R250). -/
def State.reset : State where
  regs := Vector.replicate numRegs 0
  pc := 0
  prog := Memory.empty
  data := Memory.empty
  status := { state := .ready, cause := none }

end Sys2Proof.Machine
end

