-- ==== Sys2Proof/Machine/Flags.lean ====
section
/-! DEFINITION. The core has no flags or condition codes (10_state.md R33), so no flag is computed anywhere. Its
one status register is STATUS, which only the host reads; this file holds the layout of its 8 bits (R31). -/

namespace Sys2Proof.Machine

/-- The code of STATUS.state; 5 to 7 never occur (R31, D2). -/
def RunState.code : RunState → BitVec 3
  | .ready => 0
  | .running => 1
  | .halted => 2
  | .exhausted => 3
  | .faulted => 4

/-- The code of a fault cause (R31, R200, D3). -/
def FaultCause.code : FaultCause → BitVec 3
  | .illegalOpcode => 1
  | .truncatedInstruction => 2
  | .registerIndexOutOfRange => 3
  | .dataAddressOutOfBounds => 4

/-- The code of STATUS.cause, 0 for NONE (R31, D3). -/
def causeCode : Option FaultCause → BitVec 3
  | none => 0
  | some c => c.code

/-- STATUS as the host reads it: bits 7:6 zero, bits 5:3 the cause, bits 2:0 the state (R31). -/
def Status.toByte (s : Status) : Byte := (0 : BitVec 2) ++ causeCode s.cause ++ s.state.code

/-- HALTED, EXHAUSTED and FAULTED end a run; READY and RUNNING do not (R32). -/
def RunState.terminal : RunState → Bool
  | .halted => true
  | .exhausted => true
  | .faulted => true
  | .ready => false
  | .running => false

end Sys2Proof.Machine
end

