-- ==== Sys2Proof/Machine/Operands.lean ====
section
/-! DEFINITION. The operand forms: a register-index byte with its range check, an absolute data address, and how a
pattern is read as a number (00_scope.md R8, 30_encoding.md R62, 44_data.md opening). -/

namespace Sys2Proof.Machine

/-- The register a register-index byte names, if it is below 32 (10_state.md R24, 41_datapath.md R106). Indices are
never reduced modulo 32. -/
def regIndex (r : Byte) : Option (Fin numRegs) :=
  if h : r.toNat < numRegs then some ⟨r.toNat, h⟩ else none

/-- The data address of LOAD and STOR: the operand itself as an unsigned byte offset, with no base, index or
scaling (R62, 20_memory.md R52). -/
def effectiveAddr (addr : Word) : Nat := addr.toNat

/-- The signed reading of a 32-bit pattern, two's complement (R8; log 15). No instruction uses it. -/
def signedValue (w : Word) : Int := w.toNat - (if w.getLsbD 31 then 2 ^ 32 else 0)

end Sys2Proof.Machine
end

