-- ==== Sys2Proof/Machine/Ops.lean ====
section
/-! DEFINITION. The named operations every meaning is written over: bytes and words of a buffer (20_memory.md R44 to
R50), registers and the program counter (10_state.md R20 to R28), and the ends of a run, TAKING A FAULT among them
(41_datapath.md R101, R108). A fault has no return (60_exceptions.md R208), so no operation undoes one. -/

namespace Sys2Proof.Machine

/-! ### Bytes of a buffer -/

/-- What a byte that `cells` does not list reads as (log 4). -/
def Memory.unlisted : Byte := 0

/-- The byte at an address in a list of cells. -/
def lookupCell : List Host.Cell → Nat → Byte
  | [], _ => Memory.unlisted
  | (a, b) :: rest, x => if a = x then b else lookupCell rest x

/-- A cell put in its place in the rising order of addresses. -/
def insertCell : List Host.Cell → Nat → Byte → List Host.Cell
  | [], x, v => [(x, v)]
  | (a, b) :: rest, x, v => if x < a then (x, v) :: (a, b) :: rest else (a, b) :: insertCell rest x v

/-- The cells with the byte at `x` set to `v`, in canonical form again: what stood at `x` is gone, and a byte equal
to `Memory.unlisted` is not listed. -/
def putCell (cells : List Host.Cell) (x : Nat) (v : Byte) : List Host.Cell :=
  let others := cells.filter fun c => c.1 != x
  if v = Memory.unlisted then others else insertCell others x v

/-- The canonical form: addresses strictly rising and inside the buffer, no listed byte equal to the unlisted one. -/
abbrev Memory.wf (m : Memory) : Prop :=
  m.cells.Pairwise (fun c d => c.1 < d.1) ∧ ∀ c ∈ m.cells, c.1 < m.len ∧ c.2 ≠ Memory.unlisted

/-- `P[a]` or `D[a]`, for `a` inside the buffer (00_scope.md R9). -/
def Memory.get (m : Memory) (a : Nat) : Byte := lookupCell m.cells a

/-- One byte written, for `a` inside the buffer; the length never changes (R30). An address outside the buffer
names no byte, and nothing is written. -/
def Memory.setByte (m : Memory) (a : Nat) (v : Byte) : Memory :=
  if a < m.len then { m with cells := putCell m.cells a v } else m

/-- The bytes at addresses `a` to `a` + `n` − 1 that exist (R112: `avail` of them). -/
def Memory.window (m : Memory) (a n : Nat) : List Byte :=
  (List.range' a (min n (m.len - a))).map m.get

/-- The cells of a byte sequence that starts at address `a`. -/
def cellsFrom : Nat → List Byte → List Host.Cell
  | _, [] => []
  | a, b :: rest => if b = Memory.unlisted then cellsFrom (a + 1) rest else (a, b) :: cellsFrom (a + 1) rest

/-- A buffer holding exactly these bytes: no header, no length prefix (R29). -/
def Memory.ofBytes (bs : List Byte) : Memory := { len := bs.length, cells := cellsFrom 0 bs }

/-- All the bytes of a buffer, byte 0 first. -/
def Memory.toBytes (m : Memory) : List Byte := (List.range m.len).map m.get

/-- The bytes `bs` written from address `a` on, one after the other. -/
def Memory.setBytes : Memory → Nat → List Byte → Memory
  | m, _, [] => m
  | m, a, b :: rest => Memory.setBytes (m.setByte a b) (a + 1) rest

/-! ### Words of the data segment -/

/-- A 4-byte access at `a` is in bounds exactly when `a + 4 ≤ DATA_LEN`, in unbounded arithmetic (R48, D7). No
alignment is asked (R46). -/
abbrev Memory.inBounds (m : Memory) (a : Nat) : Prop := a + 4 ≤ m.len

/-- `MemRead(a, 4)`, for `a` in bounds (R49). -/
def Memory.read32 (m : Memory) (a : Nat) : Word := le32 (m.get a) (m.get (a + 1)) (m.get (a + 2)) (m.get (a + 3))

/-- `MemWrite(a, 4, v)`, for `a` in bounds (R49). -/
def Memory.write32 (m : Memory) (a : Nat) (v : Word) : Memory := m.setBytes a (bytesLe32 v)

/-! ### Registers, program counter, data segment, STATUS -/

/-- `x[i]` (R9, R20). -/
def State.reg (s : State) (i : Fin numRegs) : Word := s.regs[i]

/-- `x[i] <- v`; no register is hard-wired (R20). -/
def State.setReg (s : State) (i : Fin numRegs) (v : Word) : State := { s with regs := s.regs.set i v }

/-- The program counter moved past `n` bytes. The counter never wraps (R28), so the sum is a plain one. -/
def State.advance (s : State) (n : Nat) : State := { s with pc := s.pc + n }

/-- `MemWrite` on the data segment. -/
def State.store32 (s : State) (a : Nat) (v : Word) : State := { s with data := s.data.write32 a v }

/-- STATUS.state written, STATUS.cause kept. -/
def State.setRunState (s : State) (r : RunState) : State := { s with status := { s.status with state := r } }

/-- An instruction of length `n` at pc runs past the end of the program buffer (R104). -/
abbrev State.truncatedAt (s : State) (n : Nat) : Prop := s.prog.len < s.pc + n

/-! ### The ends of a run -/

/-- TAKING A FAULT (R108, R207): pc past the opcode byte only, STATUS ← (FAULTED, cause), nothing else. No state is
saved, no control is transferred, and there is no return (R208). -/
def takeFault (c : FaultCause) (s : State) : State :=
  { s with pc := s.pc + 1, status := { state := .faulted, cause := some c } }

/-- Falling off the end of the program: STATUS.state ← EXHAUSTED and nothing else (R101). -/
def exhaust (s : State) : State := s.setRunState .exhausted

end Sys2Proof.Machine
end

