-- ==== Sys2Proof/Machine/Control.lean ====
section
/-! DEFINITION. The control operations of 42_control.md: HLT and the Illegal tag. There is no control transfer
(R132). -/

namespace Sys2Proof.Machine

/-- HLT (R130): pc past the opcode, STATUS.state ← HALTED, STATUS.cause kept. Its one byte is never truncated (R104). -/
def execHlt (s : State) : Host.Outcome State Fault Refusal := .next ((s.advance 1).setRunState .halted)

/-- The Illegal tag (R131): the IllegalOpcode fault, whichever of the 251 bytes it is. No operand byte is read, and
the byte's value is not recorded (R201). -/
def execIllegal (_opcode : Byte) (s : State) : Host.Outcome State Fault Refusal := .next (takeFault .illegalOpcode s)

end Sys2Proof.Machine
end

