-- ==== Sys2Proof/Machine/DataMemory.lean ====
section
/-! DEFINITION. The data memory instructions of 44_data.md: LOAD and STOR. Both check in the order of
60_exceptions.md R205: truncation, register index, data address. -/

namespace Sys2Proof.Machine

/-- LOAD (R150): `x[r] <- MemRead(addr, 4)`. -/
def execLoad (r : Byte) (addr : Word) (s : State) : Host.Outcome State Fault Refusal :=
  if s.truncatedAt 6 then .next (takeFault .truncatedInstruction s)
  else
    match regIndex r with
    | none => .next (takeFault .registerIndexOutOfRange s)
    | some i =>
      if s.data.inBounds (effectiveAddr addr) then .next ((s.setReg i (s.data.read32 (effectiveAddr addr))).advance 6)
      else .next (takeFault .dataAddressOutOfBounds s)

/-- STOR (R151): `MemWrite(addr, 4, x[r])`, the named register's own value (90_conflicts.md C5). -/
def execStor (r : Byte) (addr : Word) (s : State) : Host.Outcome State Fault Refusal :=
  if s.truncatedAt 6 then .next (takeFault .truncatedInstruction s)
  else
    match regIndex r with
    | none => .next (takeFault .registerIndexOutOfRange s)
    | some i =>
      if s.data.inBounds (effectiveAddr addr) then .next ((s.store32 (effectiveAddr addr) (s.reg i)).advance 6)
      else .next (takeFault .dataAddressOutOfBounds s)

end Sys2Proof.Machine
end

