-- ==== Sys2Proof/Machine/Register.lean ====
section
/-! DEFINITION. The register instructions of 43_register.md: LDIM and MOV. -/

namespace Sys2Proof.Machine

/-- LDIM (R140): `x[r] <- imm`, the pattern unchanged. Truncation outranks a bad index (R205). -/
def execLdim (r : Byte) (imm : Word) (s : State) : Host.Outcome State Fault Refusal :=
  if s.truncatedAt 6 then .next (takeFault .truncatedInstruction s)
  else
    match regIndex r with
    | none => .next (takeFault .registerIndexOutOfRange s)
    | some i => .next ((s.setReg i imm).advance 6)

/-- MOV (R141): `x[dst] <- x[src]`, the source read before the write (R110). One cause for a bad `src`, a bad `dst`
or both. -/
def execMov (src dst : Byte) (s : State) : Host.Outcome State Fault Refusal :=
  if s.truncatedAt 3 then .next (takeFault .truncatedInstruction s)
  else
    match regIndex src, regIndex dst with
    | some i, some j => .next ((s.setReg j (s.reg i)).advance 3)
    | _, _ => .next (takeFault .registerIndexOutOfRange s)

end Sys2Proof.Machine
end

