-- ==== Sys2Proof/Machine/Dispatch.lean ====
section
/-! DEFINITION. One arm per instruction, each a direct call of its meaning. -/

namespace Sys2Proof.Machine

def exec (i : Instr) (s : State) : Host.Outcome State Fault Refusal :=
  match i with
  | .hlt => Sys2Proof.Machine.execHlt s
  | .load r addr => Sys2Proof.Machine.execLoad r addr s
  | .mov src dst => Sys2Proof.Machine.execMov src dst s
  | .stor r addr => Sys2Proof.Machine.execStor r addr s
  | .ldim r imm => Sys2Proof.Machine.execLdim r imm s
  | .illegal opcode => Sys2Proof.Machine.execIllegal opcode s

end Sys2Proof.Machine
end

