-- ==== Sys2Proof/Machine/Cycle.lean ====
section
/-! DEFINITION. One cycle of a RUNNING core: the exhaustion check, fetch, decode, truncation check and dispatch of
41_datapath.md R101 to R105; and where the host's table word is placed. -/

namespace Sys2Proof.Machine

/-- The instruction bytes that exist at pc, at most the longest instruction (R102, R112). -/
def State.fetchBytes (s : State) : List Byte := s.prog.window s.pc maxInstrLen

/-- One cycle of a running core (R111). There is no byte at pc exactly when pc ≥ `PROG_LEN`: the run is exhausted
(R101). A defined opcode without all its operand bytes faults before any operand is used (R104). A whole
instruction is executed. -/
def cycle (s : State) : Host.Outcome State Fault Refusal :=
  match decode s.fetchBytes with
  | .error .noBytes => .next (exhaust s)
  | .error (.truncated _) => .next (takeFault .truncatedInstruction s)
  | .ok (i, _) => exec i s

/-- The buffer with `bs` at address `a`, long enough to hold them. -/
def Memory.placeAt (m : Memory) (a : Nat) (bs : List Byte) : Memory :=
  Memory.setBytes { m with len := max m.len (a + bs.length) } a bs

/-- The bytes placed where the next fetch reads, and the core RUNNING (R253, R255). -/
def State.placeInstr (s : State) (bs : List Byte) : State :=
  { s with prog := s.prog.placeAt s.pc bs, status := { state := .running, cause := none } }

end Sys2Proof.Machine
end

