-- ==== Sys2Proof/Machine/Step.lean ====
section
/-! DEFINITION. One step of the machine: a cycle while RUNNING, nothing otherwise (41_datapath.md R100). -/

namespace Sys2Proof.Machine

/-- In READY, HALTED, EXHAUSTED and FAULTED the datapath takes no step and changes no state (R100; log 3). -/
def step (s : State) : Host.Outcome State Fault Refusal :=
  match s.status.state with
  | .running => cycle s
  | .ready => .next s
  | .halted => .next s
  | .exhausted => .next s
  | .faulted => .next s

/-- The state whose very next step fetches and runs the table word `w`: its bytes at pc, and the core started
(log 6). -/
def State.withFetchWord (s : State) (nbits w : Nat) : State := s.placeInstr (tableBytes nbits w)

end Sys2Proof.Machine
end

