-- ==== Sys2Proof/Machine/Datapath.lean ====
section
/-! DEFINITION. The single-cycle datapath at the level of its blocks and ports (41_datapath.md R112, R113): the
program fetch window, the control signals per tag, the register file's and the data memory's ports, and the
write-back select. It is not visible to a program; the step of R111 alone fixes the behaviour, and a statement says
that this one agrees with it. -/

namespace Sys2Proof.Machine

/-- The program fetch window: `ib[0..5]` and `avail`, the number of its bytes that exist (R112). -/
structure FetchWindow where
  ib : Vector Byte 6
  avail : Nat
deriving DecidableEq, Repr

/-- The fetch window at pc. The bytes at index ≥ `avail` are not defined (U7): `undef` supplies them, and nothing is
known of it (log 10). -/
def fetchWindow (undef : Vector Byte 6) (s : State) : FetchWindow where
  ib := Vector.ofFn fun k => if s.pc + k.val < s.prog.len then s.prog.get (s.pc + k.val) else undef[k]
  avail := min 6 (s.prog.len - s.pc)

/-- The write-back select: immediate, register read port, memory read port (R112). -/
inductive WriteBack where
  | imm | rd | mrd
deriving DecidableEq, Repr

/-- The control signals of one step (R113); `none` is the table's "-", a port this tag does not use
(log 10), and a port of a faulting step (log 17). The data write port's value `mwd` is always the register read
port's `rd`. -/
structure Control where
  ra : Option (BitVec 5)
  we : Bool
  wa : Option (BitVec 5)
  wd : Option WriteBack
  maddr : Option Word
  mwe : Bool
  pcNext : Nat
  statusNext : Status
deriving DecidableEq, Repr

/-- A register-index byte at a 5-bit index port: its bits 4:0 (R112). -/
def indexPort (b : Byte) : BitVec 5 := b.extractLsb' 0 5

/-- The control signals of a faulting step: every write enable is 0 (R113), pc and STATUS as R108 says. DESIGN CHOICE
(log 17): for a truncation, register-index or data-address fault R113 gives `ra`, `wa`, `wd` and `maddr` no value; the
model makes all four `none`, `maddr` also where `inb` was tested for it. -/
def faultControl (a : Nat) (c : FaultCause) : Control where
  ra := none
  we := false
  wa := none
  wd := none
  maddr := none
  mwe := false
  pcNext := a + 1
  statusNext := { state := .faulted, cause := some c }

/-- The address or immediate field of the window (R62). -/
def FetchWindow.field (w : FetchWindow) : Word := le32 w.ib[2] w.ib[3] w.ib[4] w.ib[5]

/-- The control signals from the window, pc, STATUS and the data memory's in-bounds signal `inb`, for the tag the
decoder gives (R113), after the checks of R103 to R107. The truncation check is `len(tag) > avail` (R112). -/
def controlSignals (w : FetchWindow) (a : Nat) (st : Status) (dataLen : Nat) : Control :=
  let tag := decodeTag w.ib[0]
  let inb := decide (w.field.toNat + 4 ≤ dataLen)
  if tag = .illegal then faultControl a .illegalOpcode
  else if tag.len > w.avail then faultControl a .truncatedInstruction
  else
    match tag with
    | .illegal => faultControl a .illegalOpcode
    | .halt =>
      { ra := none, we := false, wa := none, wd := none, maddr := none, mwe := false, pcNext := a + 1,
        statusNext := { st with state := .halted } }
    | .loadImmediate =>
      if w.ib[1].toNat ≥ 32 then faultControl a .registerIndexOutOfRange
      else
        { ra := none, we := true, wa := some (indexPort w.ib[1]), wd := some .imm, maddr := none, mwe := false,
          pcNext := a + 6, statusNext := st }
    | .moveRegister =>
      if w.ib[1].toNat ≥ 32 ∨ w.ib[2].toNat ≥ 32 then faultControl a .registerIndexOutOfRange
      else
        { ra := some (indexPort w.ib[1]), we := true, wa := some (indexPort w.ib[2]), wd := some .rd, maddr := none,
          mwe := false, pcNext := a + 3, statusNext := st }
    | .loadFromData =>
      if w.ib[1].toNat ≥ 32 then faultControl a .registerIndexOutOfRange
      else if !inb then faultControl a .dataAddressOutOfBounds
      else
        { ra := none, we := true, wa := some (indexPort w.ib[1]), wd := some .mrd, maddr := some w.field,
          mwe := false, pcNext := a + 6, statusNext := st }
    | .storeToData =>
      if w.ib[1].toNat ≥ 32 then faultControl a .registerIndexOutOfRange
      else if !inb then faultControl a .dataAddressOutOfBounds
      else
        { ra := some (indexPort w.ib[1]), we := false, wa := none, wd := none, maddr := some w.field, mwe := true,
          pcNext := a + 6, statusNext := st }

/-- The register file's read port, `rd` = `x[ra]` (R112). -/
def readPort (s : State) (ra : BitVec 5) : Word := s.reg ra.toFin

/-- The write-back value `wd`: a 3-way pass-through with no arithmetic (R112). -/
def writeBack (c : Control) (imm : Word) (s : State) : Option Word :=
  match c.wd with
  | none => none
  | some .imm => some imm
  | some .rd => c.ra.map (readPort s)
  | some .mrd => c.maddr.map fun a => s.data.read32 a.toNat

/-- The register file's write port: `x[wa]` <- `wd` when `we` (R112). -/
def writePort (c : Control) (imm : Word) (s : State) : Vector Word numRegs :=
  match c.we, c.wa, writeBack c imm s with
  | true, some wa, some v => (s.setReg wa.toFin v).regs
  | _, _, _ => s.regs

/-- The data memory's write port: MemWrite(`maddr`, 4, `rd`) when `mwe` (R112). -/
def storePort (c : Control) (s : State) : Memory :=
  match c.mwe, c.maddr, c.ra with
  | true, some a, some ra => s.data.write32 a.toNat (readPort s ra)
  | _, _, _ => s.data

/-- The writes of a step, all together at its end (R110): register file, data memory, pc and STATUS. -/
def commit (c : Control) (imm : Word) (s : State) : State where
  regs := writePort c imm s
  pc := c.pcNext
  prog := s.prog
  data := storePort c s
  status := c.statusNext

/-- One clock cycle of the datapath (R100, R101, R112, R113). -/
def datapathCycle (undef : Vector Byte 6) (s : State) : State :=
  if s.status.state ≠ .running then s
  else if s.pc ≥ s.prog.len then { s with status := { s.status with state := .exhausted } }
  else
    let w := fetchWindow undef s
    commit (controlSignals w s.pc s.status s.data.len) w.field s

end Sys2Proof.Machine
end

