-- ==== Sys2Proof/Machine/HostInterface.lean ====
section
/-! DEFINITION. The host's side of the core: its commands and their preconditions (70_reset_and_hazards.md R252 to
R256), and what the host reads of a run (R261). The host acts between steps; no queue exists, so the commands are a
function beside step (log 5). -/

namespace Sys2Proof.Machine

/-- A host command (R254). -/
inductive HostCommand where
  | reset
  | loadProgram (bytes : List Byte)
  | loadData (bytes : List Byte)
  | writeReg (i : Nat) (v : Word)
  | start
  | read
deriving DecidableEq, Repr

/-- What Read returns: `x`, pc, `P`, `D` and STATUS (R254). -/
structure HostView where
  regs : Vector Word numRegs
  pc : Nat
  prog : List Byte
  data : List Byte
  status : Byte
deriving DecidableEq, Repr

/-- What the host is told: the command is done, here is the view it asked for, or the command is refused. -/
inductive HostReply where
  | done
  | view (v : HostView)
  | refused
deriving DecidableEq, Repr

/-- The host's view of a state (R254). -/
def State.view (s : State) : HostView :=
  { regs := s.regs, pc := s.pc, prog := s.prog.toBytes, data := s.data.toBytes, status := s.status.toByte }

/-- LoadProgram: in READY only; pc unchanged (R254, 90_conflicts.md C7). A longer buffer than `PC_BITS` admits is
refused (log 7). -/
def hostLoadProgram (p : Params) (bytes : List Byte) (s : State) : State × HostReply :=
  if s.status.state = .ready ∧ bytes.length ≤ p.maxProgLen then ({ s with prog := .ofBytes bytes }, .done)
  else (s, .refused)

/-- LoadData: while not RUNNING (R254). A buffer longer than 2^32 bytes is refused (log 7). -/
def hostLoadData (bytes : List Byte) (s : State) : State × HostReply :=
  if s.status.state ≠ .running ∧ bytes.length ≤ maxDataLen then ({ s with data := .ofBytes bytes }, .done)
  else (s, .refused)

/-- WriteReg: while not RUNNING, index below 32 (R254). -/
def hostWriteReg (i : Nat) (v : Word) (s : State) : State × HostReply :=
  if h : i < numRegs then
    if s.status.state ≠ .running then (s.setReg ⟨i, h⟩ v, .done) else (s, .refused)
  else (s, .refused)

/-- Start: from READY, HALTED and EXHAUSTED the run begins or resumes at the current pc; a fault stays (R255). -/
def hostStart (s : State) : State × HostReply :=
  match s.status.state with
  | .ready => ({ s with status := { state := .running, cause := none } }, .done)
  | .halted => ({ s with status := { state := .running, cause := none } }, .done)
  | .exhausted => ({ s with status := { state := .running, cause := none } }, .done)
  | .faulted => (s, .refused)
  | .running => (s, .refused)

/-- Read: while not RUNNING; changes nothing (R254). -/
def hostRead (s : State) : State × HostReply :=
  if s.status.state ≠ .running then (s, .view s.view) else (s, .refused)

/-- The effect of a host command and its reply (R254). Reset is accepted in every state (R250). -/
def hostCommand (p : Params) (c : HostCommand) (s : State) : State × HostReply :=
  match c with
  | .reset => (State.reset, .done)
  | .loadProgram bytes => hostLoadProgram p bytes s
  | .loadData bytes => hostLoadData bytes s
  | .writeReg i v => hostWriteReg i v s
  | .start => hostStart s
  | .read => hostRead s

/-- Commands issued one after the other. -/
def hostCommands (p : Params) : List HostCommand → State → State
  | [], s => s
  | c :: rest, s => hostCommands p rest (hostCommand p c s).1

/-- The boot sequence of R253 after Reset: the program, the data segment, then Start. -/
def bootCommands (prog data : List Byte) : List HostCommand := [.reset, .loadProgram prog, .loadData data, .start]

/-- The result of a run as the host reads it (R261). -/
structure RunResult where
  status : Status
  pc : Nat
  regs : Vector Word numRegs
  data : Memory
deriving DecidableEq, Repr

/-- The result a state shows once its run has ended; while RUNNING there is none, and before the first run there
is none either (R32, R261). -/
def State.result (s : State) : Option RunResult :=
  if s.status.state.terminal then some { status := s.status, pc := s.pc, regs := s.regs, data := s.data } else none

end Sys2Proof.Machine
end

