-- ==== Sys2Proof/Safety.lean ====
section
/-! DEFINITION. What the spec promises of every state of a core, which states a core can be in, what a program must
meet to run without a fault, and how long a run can take. -/

namespace Sys2Proof

open Machine

/-- What holds of every state a core can be in, for an implementation with parameters `p`. -/
structure Inv (p : Params) (s : State) : Prop where
  /-- pc never exceeds `PROG_LEN` (10_state.md R28). -/
  pc_le : s.pc ≤ s.prog.len
  /-- `PROG_LEN` ≤ 2^`PC_BITS` − 1, so pc always fits its width (R6, R28). -/
  prog_len_le : s.prog.len ≤ p.maxProgLen
  /-- `DATA_LEN` ≤ 2^32 (R6). -/
  data_len_le : s.data.len ≤ maxDataLen
  /-- Both buffers are in canonical form. -/
  prog_wf : s.prog.wf
  data_wf : s.data.wf
  /-- `cause` is non-zero exactly when `state` = FAULTED (R31). -/
  cause_iff : s.status.cause ≠ none ↔ s.status.state = .faulted
  /-- Before the first run pc is 0 (70_reset_and_hazards.md R250, R254). -/
  ready_pc : s.status.state = .ready → s.pc = 0

/-- The states a core can be in: reset, then steps and host commands in any order (R100, R254). -/
inductive Reachable (p : Params) : State → Prop where
  | reset : Reachable p State.reset
  | step {s t : State} : Reachable p s → Machine.step s = .next t → Reachable p t
  | host {s : State} (c : HostCommand) : Reachable p s → Reachable p (hostCommand p c s).1

/-- A register-index byte that names a register (10_state.md R24). -/
abbrev validReg (r : Byte) : Prop := r.toNat < numRegs

/-- What an instruction must meet to be free of faults in a state: its bytes inside the program buffer, its register
indices below 32, its address in bounds, a defined opcode (70_reset_and_hazards.md R259). -/
def FaultFree (s : State) : Instr → Prop
  | .hlt => s.pc + 1 ≤ s.prog.len
  | .load r addr => s.pc + 6 ≤ s.prog.len ∧ validReg r ∧ s.data.inBounds addr.toNat
  | .mov src dst => s.pc + 3 ≤ s.prog.len ∧ validReg src ∧ validReg dst
  | .stor r addr => s.pc + 6 ≤ s.prog.len ∧ validReg r ∧ s.data.inBounds addr.toNat
  | .ldim r _ => s.pc + 6 ≤ s.prog.len ∧ validReg r
  | .illegal _ => False

/-- The opcode byte at pc, for pc inside the program buffer. -/
def opcodeAt (s : State) : Byte := s.prog.get s.pc

/-- The address or immediate field of the instruction at pc, program bytes pc + 2 to pc + 5 (R62). -/
def fieldAt (s : State) : Word := s.prog.read32 (s.pc + 2)

/-- The bytes of instruction `i` stand in the program buffer at pc (30_encoding.md R60). -/
def InstrAt (s : State) (i : Instr) : Prop :=
  s.pc + (encode i).length ≤ s.prog.len ∧
    ∀ k (h : k < (encode i).length), s.prog.get (s.pc + k) = (encode i)[k]

/-- Some register index that the instruction at pc names is 32 or more (41_datapath.md R106). -/
def NamesBadRegister (s : State) : Prop :=
  match decodeTag (opcodeAt s) with
  | .loadFromData => ¬ validReg (s.prog.get (s.pc + 1))
  | .storeToData => ¬ validReg (s.prog.get (s.pc + 1))
  | .loadImmediate => ¬ validReg (s.prog.get (s.pc + 1))
  | .moveRegister => ¬ validReg (s.prog.get (s.pc + 1)) ∨ ¬ validReg (s.prog.get (s.pc + 2))
  | .halt => False
  | .illegal => False

/-- The instruction at pc accesses data memory out of bounds (41_datapath.md R107). -/
def AccessesOutOfBounds (s : State) : Prop :=
  (decodeTag (opcodeAt s) = .loadFromData ∨ decodeTag (opcodeAt s) = .storeToData) ∧
    s.data.len < (fieldAt s).toNat + 4

/-- Two buffers of the same length that read the same at every address. -/
def SameBytes (m n : Memory) : Prop := n.len = m.len ∧ ∀ a, n.get a = m.get a

/-- From `s` to `t` the fault action with cause `c` and nothing else (41_datapath.md R108): pc one further, STATUS =
(FAULTED, c), every register and every byte of both buffers as before. -/
def FaultTaken (c : FaultCause) (s t : State) : Prop :=
  t.pc = s.pc + 1 ∧ t.status.state = .faulted ∧ t.status.cause = some c ∧ (∀ i, t.reg i = s.reg i) ∧
    SameBytes s.prog t.prog ∧ SameBytes s.data t.data

/-- The most steps a run from this state can take: ⌊(`PROG_LEN` − pc)/3⌋ + 1 (41_datapath.md R114). -/
def stepBound (s : State) : Nat := (s.prog.len - s.pc) / 3 + 1

end Sys2Proof
end

