-- ==== Sys2Proof/Certificates/Slice0/Obligations.lean ====
section
/-! DEFINITION. The statements for the provers. Each docstring names the rules of spec/ it formalises; a clause that
rests on one of the spec's own decisions (D<n> of 92_eei_decisions.md) or inferences says so. -/

open Sys2Proof Sys2Proof.Machine

/-! ### Reset and the invariant -/

/-- Reset (R22, R26, R29, R30; R250, whose STATUS value is D2): every register and pc are 0, both buffers are empty,
STATUS is (READY, NONE) and reads 0x00. -/
def Obligations.ResetValues : Prop :=
  (∀ i, State.reset.reg i = 0) ∧ State.reset.pc = 0 ∧ State.reset.prog.len = 0 ∧ State.reset.data.len = 0 ∧
    State.reset.status.state = .ready ∧ State.reset.status.cause = none ∧ State.reset.status.toByte = 0x00

/-- The invariant holds at reset, for every counter width. -/
def Obligations.InvHoldsAtReset : Prop := ∀ p, Inv p State.reset

/-- Every step keeps the invariant: pc ≤ `PROG_LEN` (R28), the lengths in their ranges (R6), `cause` non-zero exactly in
FAULTED (R31), pc = 0 in READY (R254), both buffers in canonical form. R28 is the spec's own inference, the ranges are D9 and
D10, and outside RUNNING step answers the same state (log 3). -/
def Obligations.InvKeptByStep : Prop := ∀ p s t, Inv p s → step s = .next t → Inv p t

/-- Every host command keeps it too, whether it is accepted or refused (R254; D13, 90_conflicts.md C7). -/
def Obligations.InvKeptByHostCommand : Prop := ∀ p s c, Inv p s → Inv p (hostCommand p c s).1

/-- Whatever a core has executed and whatever its host has done, the invariant holds, so pc fits `PC_BITS` bits (R28). -/
def Obligations.ReachableStatesMeetInv : Prop := ∀ p s, Reachable p s → Inv p s ∧ s.pc < 2 ^ p.pcBits

/-! ### Encoding and decoding -/

/-- R62: no field is shifted, scaled or extended; register bytes are taken as they are, in MOV the source first; the
four bytes of an address or an immediate are little-endian. -/
def Obligations.DecodeReadsOperandFields : Prop :=
  ∀ (b1 b2 b3 b4 b5 : Byte) (rest : List Byte), ∃ field : Word,
    field.toNat = b2.toNat + 2 ^ 8 * b3.toNat + 2 ^ 16 * b4.toNat + 2 ^ 24 * b5.toNat ∧
    decode (0x01 :: b1 :: b2 :: b3 :: b4 :: b5 :: rest) = .ok (.load b1 field, rest) ∧
    decode (0x02 :: b1 :: b2 :: rest) = .ok (.mov b1 b2, rest) ∧
    decode (0x03 :: b1 :: b2 :: b3 :: b4 :: b5 :: rest) = .ok (.stor b1 field, rest) ∧
    decode (0x04 :: b1 :: b2 :: b3 :: b4 :: b5 :: rest) = .ok (.ldim b1 field, rest)

/-- R63: an instruction takes 1, 3 or 6 bytes, as the tag of its opcode byte says, and the decoder hands back all the
others. -/
def Obligations.InstructionLengths : Prop :=
  (∀ bs i rest, decode bs = .ok (i, rest) → ∃ op more, bs = op :: more ∧ decodeTag op = i.tag ∧
    bs.length = rest.length + i.tag.len) ∧
  Tag.len .halt = 1 ∧ Tag.len .loadFromData = 6 ∧ Tag.len .moveRegister = 3 ∧ Tag.len .storeToData = 6 ∧
    Tag.len .loadImmediate = 6 ∧ Tag.len .illegal = 1

/-- The decoder LUT (R82) for all 256 bytes, its 3-bit output (R81, D16) as the gates of R82 compute it (the spec's own
inference), and never a code 6 or 7. -/
def Obligations.DecoderLutAndItsLogic : Prop :=
  ∀ b : Byte,
    (decodeTag b =
      if b = 0x00 then .halt else if b = 0x01 then .loadFromData else if b = 0x02 then .moveRegister
      else if b = 0x03 then .storeToData else if b = 0x04 then .loadImmediate else .illegal) ∧
    (decodeTag b).code =
      (if b.extractLsb' 3 5 = 0 ∧ ¬ (b.getLsbD 2 ∧ (b.getLsbD 1 ∨ b.getLsbD 0)) then b.extractLsb' 0 3 else 0b101) ∧
    (decodeTag b).code.toNat ≤ 5

/-- Every opcode byte matches exactly one row of the opcode table, and that row's tag is the decoder's answer (R64;
30_encoding.md, opening). -/
def Obligations.OpcodeTableIsUnambiguous : Prop :=
  ∀ b : Byte, (opcodeTable.filter fun row => row.covers b).map OpcodeRow.tag = [decodeTag b]

/-- Words written out from the spec's own examples (95_test_vectors.md E2, E3, E4, V30, E7 and V41) decode to the
instructions they stand for. -/
def Obligations.SpecWordsDecode : Prop :=
  decode [0x00] = .ok (.hlt, []) ∧
  decode [0x05] = .ok (.illegal 0x05, []) ∧
  decode [0x04, 0x07, 0x78, 0x56, 0x34, 0x12] = .ok (.ldim 7 0x12345678, []) ∧
  decode [0x01, 0x02, 0x01, 0x00, 0x00, 0x00] = .ok (.load 2 1, []) ∧
  decode [0x02, 0x03, 0x09] = .ok (.mov 3 9, []) ∧
  decode [0x03, 0x04, 0x02, 0x00, 0x00, 0x00] = .ok (.stor 4 2, [])

/-- Decoding an encoded well-formed instruction gives it back, every operand at every value, and leaves what follows
it untouched (R60 to R62). -/
def Obligations.DecodeOfEncode : Prop :=
  ∀ (i : Instr) (rest : List Byte), i.wellFormed = true → decode (encode i ++ rest) = .ok (i, rest)

/-- The other direction: the decoder answers only well-formed instructions, and only on their own bytes, so no two
byte sequences mean the same instruction. -/
def Obligations.EncodeOfDecode : Prop :=
  ∀ bs i rest, decode bs = .ok (i, rest) → i.wellFormed = true ∧ bs = encode i ++ rest

/-! ### Byte order and memory -/

/-- R44: `le32` and `bytes_le32` are inverse to each other, with byte 0 the least significant; the unsigned reading is
the base-256 number, the signed one the two's complement value of the same bits; the spec's example is 500. -/
def Obligations.LittleEndianConversions : Prop :=
  (∀ b0 b1 b2 b3 : Byte, bytesLe32 (le32 b0 b1 b2 b3) = [b0, b1, b2, b3] ∧
    (le32 b0 b1 b2 b3).toNat = b0.toNat + 2 ^ 8 * b1.toNat + 2 ^ 16 * b2.toNat + 2 ^ 24 * b3.toNat) ∧
  (∀ v : Word, le32 (byteOf v 0) (byteOf v 1) (byteOf v 2) (byteOf v 3) = v ∧
    signedValue v = v.toNat - 2 ^ 32 * (v.getLsbD 31).toNat) ∧
  (le32 244 1 0 0).toNat = 500

/-- R49: MemRead and MemWrite at an in-bounds address. The read is composed of the four bytes there, the write sets
those four bytes to the value's bytes, bits 8k+7 to 8k each, and no other. -/
def Obligations.MemReadAndMemWrite : Prop :=
  ∀ (m : Memory) (a : Nat) (v : Word), a + 4 ≤ m.len →
    (m.read32 a).toNat = (m.get a).toNat + 2 ^ 8 * (m.get (a + 1)).toNat + 2 ^ 16 * (m.get (a + 2)).toNat +
      2 ^ 24 * (m.get (a + 3)).toNat ∧
    (m.write32 a v).len = m.len ∧
    (∀ k < 4, (m.write32 a v).get (a + k) = BitVec.ofNat 8 (v.toNat / 2 ^ (8 * k))) ∧
    ∀ y, y < a ∨ a + 4 ≤ y → (m.write32 a v).get y = m.get y

/-- Words that overlap compose byte by byte (R45, the spec's own inference, and R53): a LOAD after a STOR finds each of
its four bytes in the stored word where the STOR wrote it, and in the old memory elsewhere. -/
def Obligations.OverlappingStoreThenLoad : Prop :=
  ∀ (s : State) (r r' : Byte) (A B : Word) (hr : r.toNat < numRegs) (hr' : r'.toNat < numRegs),
    s.pc + 12 ≤ s.prog.len → A.toNat + 4 ≤ s.data.len → B.toNat + 4 ≤ s.data.len →
    ∃ t u, exec (.stor r A) s = .next t ∧ exec (.load r' B) t = .next u ∧
      ∀ k < 4, byteOf (u.reg ⟨r'.toNat, hr'⟩) k =
        if A.toNat ≤ B.toNat + k ∧ B.toNat + k < A.toNat + 4
        then byteOf (s.reg ⟨r.toNat, hr⟩) (B.toNat + k - A.toNat) else s.data.get (B.toNat + k)

/-! ### The instructions: encoding, faults, result and frame -/

/-- LDIM, the whole of R140: its bytes; TruncatedInstruction when fewer than 6 bytes remain, else
RegisterIndexOutOfRange when r ≥ 32; else x[r] is the immediate, any 32-bit pattern, pc moves by 6, and nothing else
changes. -/
def Obligations.LdimRule : Prop :=
  ∀ (s : State) (r : Byte) (imm : Word),
    decode ([0x04, r] ++ bytesLe32 imm) = .ok (.ldim r imm, []) ∧
    (s.prog.len < s.pc + 6 → ∃ t, exec (.ldim r imm) s = .next t ∧ FaultTaken .truncatedInstruction s t) ∧
    (s.pc + 6 ≤ s.prog.len → 32 ≤ r.toNat →
      ∃ t, exec (.ldim r imm) s = .next t ∧ FaultTaken .registerIndexOutOfRange s t) ∧
    (s.pc + 6 ≤ s.prog.len → r.toNat < 32 →
      ∃ t, exec (.ldim r imm) s = .next t ∧
        (∀ i : Fin numRegs, t.reg i = if i.val = r.toNat then imm else s.reg i) ∧
        t.pc = s.pc + 6 ∧ t.status = s.status ∧ SameBytes s.prog t.prog ∧ SameBytes s.data t.data)

/-- MOV, the whole of R141 (one cause whichever index is bad: D4): its bytes, source first; TruncatedInstruction when
fewer than 3 bytes remain, else RegisterIndexOutOfRange when src ≥ 32 or dst ≥ 32; else x[dst] is what x[src] was, pc
moves by 3, and nothing else changes, x[src] neither unless it is x[dst]. -/
def Obligations.MovRule : Prop :=
  ∀ (s : State) (src dst : Byte),
    decode [0x02, src, dst] = .ok (.mov src dst, []) ∧
    (s.prog.len < s.pc + 3 → ∃ t, exec (.mov src dst) s = .next t ∧ FaultTaken .truncatedInstruction s t) ∧
    (s.pc + 3 ≤ s.prog.len → 32 ≤ src.toNat ∨ 32 ≤ dst.toNat →
      ∃ t, exec (.mov src dst) s = .next t ∧ FaultTaken .registerIndexOutOfRange s t) ∧
    (s.pc + 3 ≤ s.prog.len → ∀ hs : src.toNat < 32, dst.toNat < 32 →
      ∃ t, exec (.mov src dst) s = .next t ∧
        (∀ i : Fin numRegs, t.reg i = if i.val = dst.toNat then s.reg ⟨src.toNat, hs⟩ else s.reg i) ∧
        t.reg ⟨src.toNat, hs⟩ = s.reg ⟨src.toNat, hs⟩ ∧
        t.pc = s.pc + 3 ∧ t.status = s.status ∧ SameBytes s.prog t.prog ∧ SameBytes s.data t.data)

/-- LOAD, the whole of R150: its bytes; the three faults in their order; else x[r] is the little-endian word of the
four data bytes at addr, whatever its alignment, pc moves by 6, and nothing else changes, no data byte either. -/
def Obligations.LoadRule : Prop :=
  ∀ (s : State) (r : Byte) (addr : Word),
    decode ([0x01, r] ++ bytesLe32 addr) = .ok (.load r addr, []) ∧
    (s.prog.len < s.pc + 6 → ∃ t, exec (.load r addr) s = .next t ∧ FaultTaken .truncatedInstruction s t) ∧
    (s.pc + 6 ≤ s.prog.len → 32 ≤ r.toNat →
      ∃ t, exec (.load r addr) s = .next t ∧ FaultTaken .registerIndexOutOfRange s t) ∧
    (s.pc + 6 ≤ s.prog.len → r.toNat < 32 → s.data.len < addr.toNat + 4 →
      ∃ t, exec (.load r addr) s = .next t ∧ FaultTaken .dataAddressOutOfBounds s t) ∧
    (s.pc + 6 ≤ s.prog.len → r.toNat < 32 → addr.toNat + 4 ≤ s.data.len →
      ∃ t, exec (.load r addr) s = .next t ∧
        (∀ i : Fin numRegs, t.reg i =
          if i.val = r.toNat then
            le32 (s.data.get addr.toNat) (s.data.get (addr.toNat + 1)) (s.data.get (addr.toNat + 2))
              (s.data.get (addr.toNat + 3))
          else s.reg i) ∧
        t.pc = s.pc + 6 ∧ t.status = s.status ∧ SameBytes s.prog t.prog ∧ SameBytes s.data t.data)

/-- STOR, the whole of R151 (no growth of the data segment: D8): its bytes; the three faults in their order; else the
four data bytes at addr are the bytes of x[r], least significant first, every other data byte is as before, pc moves
by 6, and nothing else changes, no register and no program byte. -/
def Obligations.StorRule : Prop :=
  ∀ (s : State) (r : Byte) (addr : Word),
    decode ([0x03, r] ++ bytesLe32 addr) = .ok (.stor r addr, []) ∧
    (s.prog.len < s.pc + 6 → ∃ t, exec (.stor r addr) s = .next t ∧ FaultTaken .truncatedInstruction s t) ∧
    (s.pc + 6 ≤ s.prog.len → 32 ≤ r.toNat →
      ∃ t, exec (.stor r addr) s = .next t ∧ FaultTaken .registerIndexOutOfRange s t) ∧
    (s.pc + 6 ≤ s.prog.len → r.toNat < 32 → s.data.len < addr.toNat + 4 →
      ∃ t, exec (.stor r addr) s = .next t ∧ FaultTaken .dataAddressOutOfBounds s t) ∧
    (s.pc + 6 ≤ s.prog.len → ∀ hr : r.toNat < 32, addr.toNat + 4 ≤ s.data.len →
      ∃ t, exec (.stor r addr) s = .next t ∧
        (∀ i, t.reg i = s.reg i) ∧ t.pc = s.pc + 6 ∧ t.status = s.status ∧ SameBytes s.prog t.prog ∧
        t.data.len = s.data.len ∧
        (∀ k < 4, t.data.get (effectiveAddr addr + k) = byteOf (s.reg ⟨r.toNat, hr⟩) k) ∧
        ∀ a, a < effectiveAddr addr ∨ effectiveAddr addr + 4 ≤ a → t.data.get a = s.data.get a)

/-- HLT, the whole of R130: its byte; pc moves by 1, STATUS.state is HALTED, STATUS.cause is kept, and no register and
no byte changes; a later Start resumes at the byte after it (D12). -/
def Obligations.HltRule : Prop :=
  ∀ (p : Params) (s : State),
    decode [0x00] = .ok (.hlt, []) ∧
    ∃ t, exec .hlt s = .next t ∧ t.pc = s.pc + 1 ∧ t.status.state = .halted ∧ t.status.cause = s.status.cause ∧
      (∀ i, t.reg i = s.reg i) ∧ SameBytes s.prog t.prog ∧ SameBytes s.data t.data ∧
      (hostCommand p .start t).2 = .done ∧ (hostCommand p .start t).1.status.state = .running ∧
      (hostCommand p .start t).1.pc = s.pc + 1

/-- The Illegal tag, the whole of R131: each of the bytes 0x05 to 0xFF decodes to it on its own, whatever follows, and
executing it takes the IllegalOpcode fault; a Start does not resume past it (D12). -/
def Obligations.IllegalRule : Prop :=
  ∀ (p : Params) (s : State) (b : Byte) (rest : List Byte), 5 ≤ b.toNat →
    decode (b :: rest) = .ok (.illegal b, rest) ∧
    ∃ t, exec (.illegal b) s = .next t ∧ FaultTaken .illegalOpcode s t ∧ hostCommand p .start t = (t, .refused)

/-- Every instruction, in every state, whatever its operands, has a next state: nothing is refused and nothing stops
the machine. A step from RUNNING has exactly one result (R115, the spec's own words). That a fault is a next state and
no stop is the model's reading (log 12, DEDUCED), and that exec has its effect in states other than RUNNING too, where
no step calls it, is where the model puts the check (log 11, DESIGN CHOICE). -/
def Obligations.EveryInstructionHasANextState : Prop := ∀ i s, ∃ t, exec i s = .next t

/-! ### Faults -/

/-- R201: a running core whose opcode byte is 0x05 to 0xFF takes IllegalOpcode; the byte is still there for the host at
pc − 1. -/
def Obligations.IllegalOpcodeFault : Prop :=
  ∀ s, s.status.state = .running → s.pc < s.prog.len → 5 ≤ (opcodeAt s).toNat →
    ∃ t, step s = .next t ∧ FaultTaken .illegalOpcode s t ∧ t.prog.get (t.pc - 1) = opcodeAt s

/-- R202: a running core at a defined opcode whose operand bytes run past `PROG_LEN` takes TruncatedInstruction. -/
def Obligations.TruncatedInstructionFault : Prop :=
  ∀ s, s.status.state = .running → s.pc < s.prog.len → decodeTag (opcodeAt s) ≠ .illegal →
    s.prog.len < s.pc + (decodeTag (opcodeAt s)).len →
    ∃ t, step s = .next t ∧ FaultTaken .truncatedInstruction s t

/-- R203: a running core at a complete LDIM, LOAD or STOR with r ≥ 32, or a complete MOV with src ≥ 32 or dst ≥ 32,
takes RegisterIndexOutOfRange. -/
def Obligations.RegisterIndexFault : Prop :=
  ∀ s, s.status.state = .running → s.pc + (decodeTag (opcodeAt s)).len ≤ s.prog.len → NamesBadRegister s →
    ∃ t, step s = .next t ∧ FaultTaken .registerIndexOutOfRange s t

/-- R204: a running core at a complete LOAD or STOR with an in-range register and addr + 4 > `DATA_LEN` takes
DataAddressOutOfBounds. -/
def Obligations.DataAddressFault : Prop :=
  ∀ s, s.status.state = .running → s.pc + (decodeTag (opcodeAt s)).len ≤ s.prog.len → ¬ NamesBadRegister s →
    AccessesOutOfBounds s → ∃ t, step s = .next t ∧ FaultTaken .dataAddressOutOfBounds s t

/-- The bounds sum does not wrap at 2^32 (R48, D7): with the three highest addresses a complete LOAD or STOR of a
register in range faults whatever the data segment holds. -/
def Obligations.HighestAddressesAlwaysFault : Prop :=
  ∀ s r (addr : Word), s.data.len ≤ 2 ^ 32 → 2 ^ 32 - 3 ≤ addr.toNat → s.pc + 6 ≤ s.prog.len → r.toNat < 32 →
    (∃ t, exec (.load r addr) s = .next t ∧ FaultTaken .dataAddressOutOfBounds s t) ∧
    ∃ t, exec (.stor r addr) s = .next t ∧ FaultTaken .dataAddressOutOfBounds s t

/-- The priority of the faults (R205, D4): from a running core with an opcode byte to fetch, the cause the step leaves
is the first that applies, whatever the later conditions are, and it leaves FAULTED exactly when one applies. -/
def Obligations.FaultPriority : Prop :=
  ∀ s, s.status.state = .running → s.pc < s.prog.len → ∃ t, step s = .next t ∧
    (decodeTag (opcodeAt s) = .illegal → FaultTaken .illegalOpcode s t) ∧
    (decodeTag (opcodeAt s) ≠ .illegal → s.prog.len < s.pc + (decodeTag (opcodeAt s)).len →
      FaultTaken .truncatedInstruction s t) ∧
    (s.pc + (decodeTag (opcodeAt s)).len ≤ s.prog.len → NamesBadRegister s →
      FaultTaken .registerIndexOutOfRange s t) ∧
    (s.pc + (decodeTag (opcodeAt s)).len ≤ s.prog.len → ¬ NamesBadRegister s → AccessesOutOfBounds s →
      FaultTaken .dataAddressOutOfBounds s t) ∧
    (decodeTag (opcodeAt s) ≠ .illegal → s.pc + (decodeTag (opcodeAt s)).len ≤ s.prog.len → ¬ NamesBadRegister s →
      ¬ AccessesOutOfBounds s → t.status.state ≠ .faulted)

/-- A fault is precise (R207, D5): whenever a running core's step ends in FAULTED, the state is the one before it
except that pc is one further and STATUS is (FAULTED, cause), and an opcode byte was there to fetch. -/
def Obligations.FaultIsPrecise : Prop :=
  ∀ s t, s.status.state = .running → step s = .next t → t.status.state = .faulted →
    s.pc < s.prog.len ∧
      ∃ c, t = { s with pc := s.pc + 1, status := { state := .faulted, cause := some c } }

/-- A fault is sticky (R208, R255; D12): a FAULTED core's Start is refused, and no host command but Reset changes its
STATUS or its pc. It takes no step and changes no state (R100, D1); that step then answers the same state is the
model's way of saying so (log 3, DESIGN CHOICE). -/
def Obligations.FaultIsSticky : Prop :=
  ∀ (p : Params) (s : State), s.status.state = .faulted →
    step s = .next s ∧ hostCommand p .start s = (s, .refused) ∧
      ∀ c, c ≠ .reset → (hostCommand p c s).1.status = s.status ∧ (hostCommand p c s).1.pc = s.pc

/-- What keeps an instruction free of faults (R259, the spec's own inference): with an opcode byte to fetch, a running
core's step does not fault exactly when a well-formed instruction stands there that meets its duties. -/
def Obligations.NoFaultExactlyWhenDutiesMet : Prop :=
  ∀ s, s.status.state = .running → s.pc < s.prog.len → ∃ t, step s = .next t ∧
    (t.status.state ≠ .faulted ↔ ∃ i : Instr, i.wellFormed = true ∧ InstrAt s i ∧ FaultFree s i)

/-! ### The step -/

/-- R100 (D1): in READY, HALTED, EXHAUSTED and FAULTED the datapath changes no state. That a step there answers the same
state, and is no stop, is the model's way of saying so (log 3). -/
def Obligations.NoStepUnlessRunning : Prop := ∀ s, s.status.state ≠ .running → step s = .next s

/-- R101: a running core with pc ≥ `PROG_LEN` goes to EXHAUSTED and changes nothing else, the empty program at its
first step too; and because pc ≤ `PROG_LEN` always, it goes there exactly when pc = `PROG_LEN`. -/
def Obligations.ExhaustionRule : Prop :=
  ∀ s, s.status.state = .running →
    (s.prog.len ≤ s.pc → ∃ t, step s = .next t ∧ t.status.state = .exhausted ∧ t.status.cause = s.status.cause ∧
      t.pc = s.pc ∧ (∀ i, t.reg i = s.reg i) ∧ SameBytes s.prog t.prog ∧ SameBytes s.data t.data) ∧
    ∀ p, Inv p s → ((∃ t, step s = .next t ∧ t.status.state = .exhausted) ↔ s.pc = s.prog.len)

/-- A running core runs the instruction its decoder reads at pc (R102, R105): the step is exec of that instruction, at
the very same state, nothing added. -/
def Obligations.StepRunsDecodedInstruction : Prop :=
  ∀ s i rest, s.status.state = .running → decode s.fetchBytes = .ok (i, rest) → step s = exec i s

/-- A running core at whose pc the bytes of a well-formed instruction stand runs that instruction, wherever pc is (R60,
R85, R102; no alignment, R46). -/
def Obligations.StepRunsEncodedInstruction : Prop :=
  ∀ s i, s.status.state = .running → i.wellFormed = true → InstrAt s i → step s = exec i s

/-- Only what the instruction names changes (R21, R29, R30, R56): a step never changes the program buffer or the length
of the data segment; it changes a data byte only at a STOR, within the four bytes of its address; it changes a
register only at LOAD, MOV or LDIM, and only the one its destination byte names. R56 is the spec's own inference, the
fixed length D8. Outside RUNNING it rests on log 3 (step answers the same state). -/
def Obligations.OnlyNamedElementsChange : Prop :=
  ∀ s t, step s = .next t →
    t.prog = s.prog ∧ t.data.len = s.data.len ∧
    (∀ a, t.data.get a ≠ s.data.get a →
      opcodeAt s = 0x03 ∧ (fieldAt s).toNat ≤ a ∧ a < (fieldAt s).toNat + 4) ∧
    ∀ i, t.reg i ≠ s.reg i →
      ((opcodeAt s = 0x01 ∨ opcodeAt s = 0x04) ∧ i.val = (s.prog.get (s.pc + 1)).toNat) ∨
      (opcodeAt s = 0x02 ∧ i.val = (s.prog.get (s.pc + 2)).toNat)

/-- pc only increases (R27): by the instruction's length when it completes, by 1 at a fault (D5), by nothing at
exhaustion or while no run is in progress (the last rests on log 3: step answers the same state there). -/
def Obligations.PcAdvancesByLength : Prop :=
  ∀ s t, step s = .next t → s.pc ≤ t.pc ∧
    (s.status.state = .running →
      (t.status.state = .exhausted ∧ t.pc = s.pc) ∨ (t.status.state = .faulted ∧ t.pc = s.pc + 1) ∨
      (t.status.state ≠ .faulted ∧ t.status.state ≠ .exhausted ∧ t.pc = s.pc + (decodeTag (opcodeAt s)).len)) ∧
    (s.status.state ≠ .running → t.pc = s.pc)

/-- How a run state is left (R32, R101, R130): a running core's step reaches HALTED exactly at an HLT, EXHAUSTED exactly
at the end of the program, and never READY; a step that stays RUNNING keeps STATUS as it was. -/
def Obligations.HowARunEnds : Prop :=
  ∀ s, s.status.state = .running → ∃ t, step s = .next t ∧
    (t.status.state = .halted ↔ s.pc < s.prog.len ∧ opcodeAt s = 0x00) ∧
    (t.status.state = .exhausted ↔ s.prog.len ≤ s.pc) ∧ t.status.state ≠ .ready ∧
    (t.status.state = .running → t.status = s.status)

/-- Every run ends (R114, the spec's own inference): a step that stays RUNNING moves pc by 3 or more, and from a running
state at most ⌊(`PROG_LEN` − pc)/3⌋ + 1 steps reach HALTED, EXHAUSTED or FAULTED. -/
def Obligations.EveryRunEnds : Prop :=
  (∀ s t, step s = .next t → s.status.state = .running → t.status.state = .running → s.pc + 3 ≤ t.pc) ∧
  ∀ s, s.status.state = .running →
    ∃ k t, k ≤ stepBound s ∧ Host.Core.run Sys2Proof.core k s = .next t ∧ t.status.state.terminal = true

/-- Nothing past the fetch window matters (R104, R112, R130: bytes after a HLT are not fetched): two running cores that
differ only in their program buffers, and whose windows at pc hold the same bytes, take the same step. -/
def Obligations.StepReadsOnlyTheWindow : Prop :=
  ∀ (s : State) (q : Memory) (t : State), s.status.state = .running →
    q.window s.pc 6 = s.prog.window s.pc 6 →
    step s = .next t → step { s with prog := q } = .next { t with prog := q }

/-! ### STATUS and the host -/

/-- R31, the layout (D2, D3): bits 2:0 of STATUS are the run state's code, bits 5:3 the cause's, bits 7:6 zero; two
different STATUS values read as different bytes. -/
def Obligations.StatusByteLayout : Prop :=
  (∀ st : Status,
    st.toByte.extractLsb' 0 3 =
      (match st.state with | .ready => 0 | .running => 1 | .halted => 2 | .exhausted => 3 | .faulted => 4) ∧
    st.toByte.extractLsb' 3 3 =
      (match st.cause with
        | none => 0
        | some .illegalOpcode => 1
        | some .truncatedInstruction => 2
        | some .registerIndexOutOfRange => 3
        | some .dataAddressOutOfBounds => 4) ∧
    st.toByte.extractLsb' 6 2 = 0) ∧
  ∀ st st' : Status, st.toByte = st'.toByte → st = st'

/-- Reset is accepted in every state, RUNNING too, and leaves the reset state, so that nothing of what came before
shows (R250, D18). -/
def Obligations.ResetFromAnyState : Prop :=
  ∀ (p : Params) (s : State), hostCommand p .reset s = (State.reset, .done)

/-- While RUNNING every command but Reset is refused, and a refused command changes nothing in any state (R254, D13). -/
def Obligations.RefusedCommandsChangeNothing : Prop :=
  (∀ (p : Params) (s : State) (c : HostCommand), s.status.state = .running → c ≠ .reset →
    hostCommand p c s = (s, .refused)) ∧
  ∀ (p : Params) (s : State) (c : HostCommand), (hostCommand p c s).2 = .refused → (hostCommand p c s).1 = s

/-- LoadProgram (R254, D13): accepted in READY for a length up to 2^`PC_BITS` − 1 and refused otherwise (a longer one: the
model's reading, log 7); the program buffer then holds those bytes, and nothing else changes. -/
def Obligations.LoadProgramCommand : Prop :=
  ∀ (p : Params) (s : State) (bs : List Byte),
    (s.status.state = .ready → bs.length ≤ 2 ^ p.pcBits - 1 →
      ∃ t, hostCommand p (.loadProgram bs) s = (t, .done) ∧ t.prog.len = bs.length ∧
        (∀ k (h : k < bs.length), t.prog.get k = bs[k]) ∧ t.pc = s.pc ∧ (∀ i, t.reg i = s.reg i) ∧
        SameBytes s.data t.data ∧ t.status = s.status) ∧
    (s.status.state ≠ .ready ∨ 2 ^ p.pcBits - 1 < bs.length →
      hostCommand p (.loadProgram bs) s = (s, .refused))

/-- LoadData (R254, D13): accepted while not RUNNING for a length up to 2^32 and refused otherwise (a longer one: the
model's reading, log 7); the data segment then holds those bytes, and nothing else changes. -/
def Obligations.LoadDataCommand : Prop :=
  ∀ (p : Params) (s : State) (bs : List Byte),
    (s.status.state ≠ .running → bs.length ≤ 2 ^ 32 →
      ∃ t, hostCommand p (.loadData bs) s = (t, .done) ∧ t.data.len = bs.length ∧
        (∀ k (h : k < bs.length), t.data.get k = bs[k]) ∧ t.pc = s.pc ∧ (∀ i, t.reg i = s.reg i) ∧
        SameBytes s.prog t.prog ∧ t.status = s.status) ∧
    (s.status.state = .running ∨ 2 ^ 32 < bs.length → hostCommand p (.loadData bs) s = (s, .refused))

/-- WriteReg (R254, D13): accepted while not RUNNING for an index below 32, and refused otherwise; it writes that
register and nothing else. -/
def Obligations.WriteRegCommand : Prop :=
  ∀ (p : Params) (s : State) (n : Nat) (v : Word),
    (s.status.state ≠ .running → n < 32 →
      ∃ t, hostCommand p (.writeReg n v) s = (t, .done) ∧
        (∀ i : Fin numRegs, t.reg i = if i.val = n then v else s.reg i) ∧ t.pc = s.pc ∧ t.status = s.status ∧
        SameBytes s.prog t.prog ∧ SameBytes s.data t.data) ∧
    (s.status.state = .running ∨ 32 ≤ n → hostCommand p (.writeReg n v) s = (s, .refused))

/-- Start (R255, D12): from READY, HALTED and EXHAUSTED it sets STATUS to (RUNNING, NONE) and changes nothing else, pc
neither; in FAULTED and RUNNING it is refused. From EXHAUSTED the first step ends EXHAUSTED again. -/
def Obligations.StartCommand : Prop :=
  ∀ (p : Params) (s : State),
    (s.status.state = .ready ∨ s.status.state = .halted ∨ s.status.state = .exhausted →
      hostCommand p .start s = ({ s with status := { state := .running, cause := none } }, .done)) ∧
    (s.status.state = .faulted ∨ s.status.state = .running → hostCommand p .start s = (s, .refused)) ∧
    (s.status = { state := .exhausted, cause := none } → s.pc = s.prog.len →
      step (hostCommand p .start s).1 = .next s)

/-- Read (R254, D13): in every state but RUNNING it returns the core's own x, pc, P, D and STATUS, each buffer byte by
byte and in its whole length, and changes nothing; in RUNNING it is refused. Of buffers the host has just loaded it
returns the very bytes. -/
def Obligations.ReadReturnsWhatWasLoaded : Prop :=
  (∀ (p : Params) (s : State), s.status.state ≠ .running →
    ∃ v, hostCommand p .read s = (s, .view v) ∧ v.pc = s.pc ∧ (∀ i : Fin numRegs, v.regs[i] = s.reg i) ∧
      v.prog.length = s.prog.len ∧ (∀ a (h : a < v.prog.length), v.prog[a] = s.prog.get a) ∧
      v.data.length = s.data.len ∧ (∀ a (h : a < v.data.length), v.data[a] = s.data.get a) ∧
      v.status = s.status.toByte) ∧
  (∀ (p : Params) (s : State), s.status.state = .running → hostCommand p .read s = (s, .refused)) ∧
  ∀ (p : Params) (ps ds : List Byte), ps.length ≤ 2 ^ p.pcBits - 1 → ds.length ≤ 2 ^ 32 →
    let s := hostCommands p [.reset, .loadProgram ps, .loadData ds] State.reset
    ∃ v, hostCommand p .read s = (s, .view v) ∧ v.prog = ps ∧ v.data = ds ∧ v.pc = 0 ∧ v.regs = s.regs ∧
      v.status = 0x00

/-- The boot sequence (R251, R253; D12, D13, D18): whatever came before, after Reset, LoadProgram, LoadData and Start the
core runs, and its first step is the instruction at program address 0. -/
def Obligations.BootRunsTheInstructionAtZero : Prop :=
  ∀ (p : Params) (s0 : State) (i : Instr) (rest ds : List Byte), i.wellFormed = true →
    (encode i ++ rest).length ≤ 2 ^ p.pcBits - 1 → ds.length ≤ 2 ^ 32 →
    let s := hostCommands p (bootCommands (encode i ++ rest) ds) s0
    s.status = { state := .running, cause := none } ∧ s.pc = 0 ∧ (∀ r, s.reg r = 0) ∧ step s = exec i s

/-- Where the boot sequence leads (R253; D12, D13, D18), for buffers in range and from any state: the reset state but for
the two buffers, which hold exactly the given bytes, and STATUS, which is (RUNNING, NONE). Nothing else of a state is
left, so two runs started with the same buffers start in the same state: any state with these registers, pc, STATUS
and bytes, its buffers in canonical form, is that one (E8 of 95_test_vectors.md). -/
def Obligations.BootReachesTheStartOfARun : Prop :=
  ∀ (p : Params) (s : State) (ps ds : List Byte), ps.length ≤ 2 ^ p.pcBits - 1 → ds.length ≤ 2 ^ 32 →
    let t := hostCommands p (bootCommands ps ds) s
    (t.status = { state := .running, cause := none } ∧ t.pc = 0 ∧ (∀ i, t.reg i = 0) ∧
      t.prog.len = ps.length ∧ (∀ k (h : k < ps.length), t.prog.get k = ps[k]) ∧ t.prog.wf ∧
      t.data.len = ds.length ∧ (∀ k (h : k < ds.length), t.data.get k = ds[k]) ∧ t.data.wf) ∧
    ∀ u : State, u.status = t.status → u.pc = t.pc → (∀ i, u.reg i = t.reg i) → u.prog.wf → SameBytes t.prog u.prog →
      u.data.wf → SameBytes t.data u.data → u = t

/-- What the host reads of a run (R261): no result in READY and RUNNING; in the three terminal states the STATUS, pc,
registers and data the core holds. -/
def Obligations.ResultOnlyAtTheEnd : Prop :=
  ∀ s : State,
    (s.status.state = .ready ∨ s.status.state = .running → s.result = none) ∧
    (s.status.state = .halted ∨ s.status.state = .exhausted ∨ s.status.state = .faulted →
      s.result = some { status := s.status, pc := s.pc, regs := s.regs, data := s.data })

/-! ### The datapath's blocks -/

/-- The block-level datapath of R112 and R113 refines the step of R111 (D17, D19): for every value of the window's
undefined bytes it computes the state the step does, so those bytes influence no result (U7). Outside RUNNING both
answer the same state, which for step is log 3. -/
def Obligations.DatapathRefinesStep : Prop :=
  ∀ (undef : Vector Byte 6) (s : State), step s = .next (datapathCycle undef s)

/-- In a faulting step every write enable is 0 (R113, the spec's own inference). -/
def Obligations.NoWriteEnableInAFaultingStep : Prop :=
  ∀ (w : FetchWindow) (a : Nat) (st : Status) (dataLen : Nat), st.state = .running →
    (controlSignals w a st dataLen).statusNext.state = .faulted →
    (controlSignals w a st dataLen).we = false ∧ (controlSignals w a st dataLen).mwe = false
end

