-- ==== Sys2Proof/Laws/Bytes.lean ====
section
/-! SUPPORT. The byte order laws: which byte of a word is which, and the number four bytes make. -/

namespace Sys2Proof

variable (b0 b1 b2 b3 : Byte) (v w : Word)

/-- The unsigned value of four bytes, least significant first (R44). -/
theorem le32_toNat :
    (le32 b0 b1 b2 b3).toNat = b0.toNat + 256 * b1.toNat + 65536 * b2.toNat + 16777216 * b3.toNat := by
  have h0 := b0.isLt
  have h1 := b1.isLt
  have h2 := b2.isLt
  have e : (le32 b0 b1 b2 b3).toNat =
      (((b3.toNat <<< 8 ||| b2.toNat) <<< 8 ||| b1.toNat) <<< 8 ||| b0.toNat) := by
    unfold le32
    erw [BitVec.toNat_append, BitVec.toNat_append, BitVec.toNat_append]
  rw [e, ← Nat.shiftLeft_add_eq_or_of_lt h0, ← Nat.shiftLeft_add_eq_or_of_lt h1, ← Nat.shiftLeft_add_eq_or_of_lt h2]
  simp only [Nat.shiftLeft_eq]
  omega

/-- The value of byte `k` of a word (R44). -/
theorem byteOf_toNat (k : Nat) : (byteOf v k).toNat = v.toNat / 2 ^ (8 * k) % 256 := by
  simp [byteOf, Nat.shiftRight_eq_div_pow]

@[simp] theorem byteOf_le32_0 : byteOf (le32 b0 b1 b2 b3) 0 = b0 := by
  apply BitVec.eq_of_toNat_eq; rw [byteOf_toNat, le32_toNat]; omega

@[simp] theorem byteOf_le32_1 : byteOf (le32 b0 b1 b2 b3) 1 = b1 := by
  apply BitVec.eq_of_toNat_eq; rw [byteOf_toNat, le32_toNat]; omega

@[simp] theorem byteOf_le32_2 : byteOf (le32 b0 b1 b2 b3) 2 = b2 := by
  apply BitVec.eq_of_toNat_eq; rw [byteOf_toNat, le32_toNat]; omega

@[simp] theorem byteOf_le32_3 : byteOf (le32 b0 b1 b2 b3) 3 = b3 := by
  apply BitVec.eq_of_toNat_eq; rw [byteOf_toNat, le32_toNat]; omega

end Sys2Proof
end

