-- ==== Sys2Proof/Laws/Decoding.lean ====
section
/-! SUPPORT. What the decoder can answer: the tag of each opcode byte, the length of what it reads, and exactly when
it stops for want of bytes. -/

namespace Sys2Proof

variable {b : Byte} {bs rest : List Byte} {i : Instr} {t : Tag}

theorem decodeTag_illegal (h : 5 ≤ b.toNat) : decodeTag b = .illegal := by
  obtain ⟨n, hn⟩ : ∃ n, b.toNat = n + 5 := ⟨b.toNat - 5, by omega⟩
  simp only [decodeTag, hn]

/-- Each opcode's tag, by the value of the byte (R82). -/
theorem decodeTag_cases (b : Byte) :
    (b = 0 ∧ decodeTag b = .halt) ∨ (b = 1 ∧ decodeTag b = .loadFromData) ∨ (b = 2 ∧ decodeTag b = .moveRegister) ∨
      (b = 3 ∧ decodeTag b = .storeToData) ∨ (b = 4 ∧ decodeTag b = .loadImmediate) ∨
      (5 ≤ b.toNat ∧ decodeTag b = .illegal) := by
  by_cases h : 5 ≤ b.toNat
  · simp [h, decodeTag_illegal h]
  · have hb : b = BitVec.ofNat 8 b.toNat := by simp
    have : b.toNat = 0 ∨ b.toNat = 1 ∨ b.toNat = 2 ∨ b.toNat = 3 ∨ b.toNat = 4 := by omega
    rcases this with h | h | h | h | h <;> rw [h] at hb <;> subst hb <;> decide

/-- A decoded instruction carries its opcode's tag and took exactly that tag's length (R60, R63). -/
theorem decode_ok (h : decode bs = .ok (i, rest)) :
    ∃ op more, bs = op :: more ∧ i.tag = decodeTag op ∧ bs.length = i.tag.len + rest.length := by
  match bs with
  | [] => simp [decode] at h
  | op :: more =>
    refine ⟨op, more, rfl, ?_⟩
    simp only [decode] at h
    split at h <;> rename_i ht
    · cases h; simp [Instr.tag, ht, Tag.len, Nat.add_comm]
    · cases h; simp [Instr.tag, ht, Tag.len, Nat.add_comm]
    all_goals
      split at h
      · cases h; simp [Instr.tag, ht, Tag.len]; omega
      · cases h

theorem decode_noBytes : decode bs = .error .noBytes ↔ bs = [] := by
  match bs with
  | [] => simp [decode]
  | op :: more =>
    simp only [decode]
    split
    · simp
    · simp
    all_goals split <;> simp

/-- The decoder stops short of a defined opcode exactly when fewer bytes than its length are there (R104). -/
theorem decode_truncated (h : decode bs = .error (.truncated t)) :
    ∃ op more, bs = op :: more ∧ t = decodeTag op ∧ t ≠ .illegal ∧ bs.length < t.len := by
  match bs with
  | [] => simp [decode] at h
  | op :: more =>
    refine ⟨op, more, rfl, ?_⟩
    simp only [decode] at h
    split at h <;> rename_i ht
    · cases h
    · cases h
    all_goals
      split at h
      · cases h
      · cases h
        rename_i hshort
        refine ⟨ht.symm, by simp, ?_⟩
        match more with
        | [] => simp [Tag.len]
        | [_] => simp [Tag.len]
        | [_, _] => first | exact (hshort _ _ _ rfl).elim | simp [Tag.len]
        | [_, _, _] => first | exact (hshort _ _ _ rfl).elim | simp [Tag.len]
        | [_, _, _, _] => first | exact (hshort _ _ _ rfl).elim | simp [Tag.len]
        | _ :: _ :: _ :: _ :: _ :: _ => first | exact (hshort _ _ _ rfl).elim | exact (hshort _ _ _ _ _ _ rfl).elim

end Sys2Proof
end

