-- ==== Sys2Proof/Laws/Memory.lean ====
section
/-! SUPPORT. The laws of a buffer: read after write, the canonical form kept by every operation, and what the byte
sequences read from it or written to it hold. -/

namespace Sys2Proof.Machine

variable (m : Memory) (a x y n : Nat) (v : Byte) (w : Word) (bs : List Byte) (cells : List Host.Cell)

/-! ### Cells -/

theorem lookupCell_insertCell (h : ∀ c ∈ cells, c.1 ≠ x) :
    lookupCell (insertCell cells x v) y = if y = x then v else lookupCell cells y := by
  induction cells with
  | nil => simp [insertCell, lookupCell, eq_comm]
  | cons c rest ih =>
    obtain ⟨a, b⟩ := c
    have ha : a ≠ x := h (a, b) (by simp)
    have ih := ih fun c hc => h c (by simp [hc])
    rw [insertCell]
    split
    · by_cases hy : y = x
      · simp [lookupCell, hy]
      · simp [lookupCell, hy, Ne.symm hy]
    · by_cases hay : a = y
      · subst hay; simp [lookupCell, ha]
      · simp [lookupCell, hay, ih]

theorem lookupCell_filter_ne :
    lookupCell (cells.filter fun c => c.1 != x) y = if y = x then Memory.unlisted else lookupCell cells y := by
  induction cells with
  | nil => simp [lookupCell]
  | cons c rest ih =>
    obtain ⟨a, b⟩ := c
    by_cases hax : a = x <;> by_cases hy : y = x <;> by_cases hay : a = y <;>
      simp_all [lookupCell]

/-- Read after write, one byte. -/
theorem lookupCell_putCell : lookupCell (putCell cells x v) y = if y = x then v else lookupCell cells y := by
  unfold putCell
  by_cases hv : v = Memory.unlisted
  · simp [hv, lookupCell_filter_ne]
  · simp only [hv, if_false]
    rw [lookupCell_insertCell _ _ _ _ (by simp), lookupCell_filter_ne]
    split <;> simp_all

theorem mem_insertCell {c : Host.Cell} (h : c ∈ insertCell cells x v) : c = (x, v) ∨ c ∈ cells := by
  induction cells with
  | nil => simpa [insertCell] using h
  | cons d rest ih =>
    simp only [insertCell] at h
    split at h <;> simp_all
    tauto

theorem insertCell_sorted (h : cells.Pairwise fun c d => c.1 < d.1) (hx : ∀ c ∈ cells, c.1 ≠ x) :
    (insertCell cells x v).Pairwise fun c d => c.1 < d.1 := by
  induction cells with
  | nil => simp [insertCell]
  | cons d rest ih =>
    obtain ⟨a, b⟩ := d
    rw [List.pairwise_cons] at h
    have ha : a ≠ x := hx (a, b) (by simp)
    simp only [insertCell]
    split
    · rename_i hlt
      simp only [List.pairwise_cons, List.mem_cons]
      refine ⟨?_, h⟩
      rintro c (rfl | hc)
      · exact hlt
      · exact Nat.lt_trans hlt (h.1 c hc)
    · rename_i hge
      refine List.pairwise_cons.2 ⟨fun c hc => ?_, ih h.2 fun c hc => hx c (by simp [hc])⟩
      rcases mem_insertCell _ _ _ hc with rfl | hc
      · exact Nat.lt_of_le_of_ne (Nat.le_of_not_lt hge) ha
      · exact h.1 c hc

/-! ### One byte -/

@[simp] theorem setByte_len : (m.setByte x v).len = m.len := by
  unfold Memory.setByte; split <;> rfl

/-- A byte inside the buffer reads as written, and every other byte as before. -/
theorem get_setByte (h : x < m.len) : (m.setByte x v).get y = if y = x then v else m.get y := by
  simp only [Memory.setByte, h, if_true, Memory.get, lookupCell_putCell]

theorem get_setByte_ne (h : y ≠ x) : (m.setByte x v).get y = m.get y := by
  unfold Memory.setByte Memory.get
  split <;> simp [lookupCell_putCell, h]

theorem setByte_wf (h : m.wf) : (m.setByte x v).wf := by
  unfold Memory.setByte
  split
  · rename_i hx
    have hs : (m.cells.filter fun c => c.1 != x).Pairwise fun c d => c.1 < d.1 := h.1.filter _
    refine ⟨?_, ?_⟩ <;> simp only [putCell] <;> split
    · exact hs
    · exact insertCell_sorted _ _ _ hs (by simp)
    · exact fun c hc => h.2 c (List.mem_of_mem_filter hc)
    · rename_i hv
      intro c hc
      rcases mem_insertCell _ _ _ hc with rfl | hc
      · exact ⟨hx, hv⟩
      · exact h.2 c (List.mem_of_mem_filter hc)
  · exact h

/-! ### Equal bytes, equal data -/

/-- A list of cells with rising addresses, all past `a`, reads as unlisted at `a`. -/
theorem lookupCell_of_lt (h : ∀ c ∈ cells, a < c.1) : lookupCell cells a = Memory.unlisted := by
  induction cells with
  | nil => rfl
  | cons c rest ih =>
    have hc : a < c.1 := h c (by simp)
    rw [lookupCell, if_neg (by omega)]
    exact ih fun d hd => h d (by simp [hd])

/-- Two canonical lists of cells that read the same at every address are the same list. -/
theorem cells_ext {cs ds : List Host.Cell} (hcs : cs.Pairwise fun c d => c.1 < d.1)
    (hds : ds.Pairwise fun c d => c.1 < d.1) (hc0 : ∀ c ∈ cs, c.2 ≠ Memory.unlisted)
    (hd0 : ∀ d ∈ ds, d.2 ≠ Memory.unlisted) (h : ∀ x, lookupCell cs x = lookupCell ds x) : cs = ds := by
  induction cs generalizing ds with
  | nil =>
    cases ds with
    | nil => rfl
    | cons d ds =>
      have := h d.1
      rw [lookupCell, lookupCell, if_pos rfl] at this
      exact absurd this.symm (hd0 d (by simp))
  | cons c cs ih =>
    rw [List.pairwise_cons] at hcs
    cases ds with
    | nil =>
      have := h c.1
      rw [lookupCell, lookupCell, if_pos rfl] at this
      exact absurd this (hc0 c (by simp))
    | cons d ds =>
      rw [List.pairwise_cons] at hds
      have key : c.1 = d.1 := by
        rcases Nat.lt_trichotomy c.1 d.1 with hlt | heq | hgt
        · have := h c.1
          rw [lookupCell, if_pos rfl, lookupCell_of_lt] at this
          · exact absurd this (hc0 c (by simp))
          · exact List.forall_mem_cons.2 ⟨hlt, fun e he => Nat.lt_trans hlt (hds.1 e he)⟩
        · exact heq
        · have := h d.1
          rw [lookupCell.eq_def (d :: ds)] at this
          simp only [if_true] at this
          rw [lookupCell_of_lt] at this
          · exact absurd this.symm (hd0 d (by simp))
          · exact List.forall_mem_cons.2 ⟨hgt, fun e he => Nat.lt_trans hgt (hcs.1 e he)⟩
      have hval : c.2 = d.2 := by
        have := h c.1
        rwa [lookupCell, if_pos rfl, lookupCell, if_pos key.symm] at this
      have htail : cs = ds := by
        refine ih hcs.2 hds.2 (fun e he => hc0 e (by simp [he])) (fun e he => hd0 e (by simp [he])) fun x => ?_
        by_cases hx : c.1 = x
        · rw [lookupCell_of_lt _ _ fun e he => hx ▸ hcs.1 e he,
            lookupCell_of_lt _ _ fun e he => hx ▸ key ▸ hds.1 e he]
        · have := h x
          rwa [lookupCell, if_neg hx, lookupCell, if_neg (key ▸ hx)] at this
      rw [htail, Prod.ext key hval]

/-- Equal buffers are equal data: two canonical buffers of one length that read the same are the same value. -/
theorem Memory.ext_of_wf {m n : Memory} (hm : m.wf) (hn : n.wf) (hlen : m.len = n.len)
    (h : ∀ a, m.get a = n.get a) : m = n := by
  obtain ⟨ml, mc⟩ := m
  obtain ⟨nl, nc⟩ := n
  have hc : mc = nc := cells_ext hm.1 hn.1 (fun c hc => (hm.2 c hc).2) (fun c hc => (hn.2 c hc).2) h
  exact hc ▸ congrArg (Memory.mk · mc) hlen

/-! ### Byte sequences -/

@[simp] theorem setBytes_len : (m.setBytes a bs).len = m.len := by
  induction bs generalizing m a with
  | nil => rfl
  | cons b rest ih => simp [Memory.setBytes, ih]

theorem setBytes_wf (h : m.wf) : (m.setBytes a bs).wf := by
  induction bs generalizing m a with
  | nil => exact h
  | cons b rest ih => exact ih _ _ (setByte_wf m a b h)

theorem get_setBytes_lt (h : y < a) : (m.setBytes a bs).get y = m.get y := by
  induction bs generalizing m a with
  | nil => rfl
  | cons b rest ih =>
    rw [Memory.setBytes, ih _ _ (by omega), get_setByte_ne _ _ _ _ (by omega)]

/-- After `bs` is written from `a` on, inside the buffer, byte `y` is the one written there if one was. -/
theorem get_setBytes (h : a + bs.length ≤ m.len) :
    (m.setBytes a bs).get y = if h : a ≤ y ∧ y < a + bs.length then bs[y - a] else m.get y := by
  induction bs generalizing m a with
  | nil => simp [Memory.setBytes]
  | cons b rest ih =>
    simp only [List.length_cons] at h ⊢
    rw [Memory.setBytes, ih _ _ (by simp; omega)]
    by_cases hy : y = a
    · subst hy
      simp [get_setByte _ _ _ _ (show y < m.len by omega)]
    · by_cases hr : a + 1 ≤ y ∧ y < a + 1 + rest.length
      · have hr' : a ≤ y ∧ y < a + (rest.length + 1) := by omega
        have : y - a = (y - (a + 1)) + 1 := by omega
        simp only [hr, hr', and_self, dite_true]
        simp [this]
      · have hr' : ¬ (a ≤ y ∧ y < a + (rest.length + 1)) := by omega
        simp only [hr, hr', dite_false]
        exact get_setByte_ne _ _ _ _ hy

/-- The exact reach of a word store: its four bytes and no other. -/
theorem get_write32 (h : m.inBounds a) :
    (m.write32 a w).get y = if a ≤ y ∧ y < a + 4 then byteOf w (y - a) else m.get y := by
  rw [Memory.write32, get_setBytes _ _ _ _ (by simpa [bytesLe32] using h)]
  by_cases hy : a ≤ y ∧ y < a + 4
  · obtain ⟨k, rfl⟩ : ∃ k, y = a + k := ⟨y - a, by omega⟩
    have hk : k < 4 := by omega
    have : a ≤ a + k ∧ a + k < a + (bytesLe32 w).length := by simp [bytesLe32]; omega
    simp only [this, hy, and_self, dite_true, if_true, Nat.add_sub_cancel_left]
    match k, hk with
    | 0, _ => rfl
    | 1, _ => rfl
    | 2, _ => rfl
    | 3, _ => rfl
  · have : ¬ (a ≤ y ∧ y < a + (bytesLe32 w).length) := by simpa [bytesLe32] using hy
    simp only [this, hy, dite_false, if_false]

@[simp] theorem write32_len : (m.write32 a w).len = m.len := setBytes_len _ _ _

theorem write32_wf (h : m.wf) : (m.write32 a w).wf := setBytes_wf _ _ _ h

@[simp] theorem ofBytes_len : (Memory.ofBytes bs).len = bs.length := rfl

theorem cellsFrom_ge {c : Host.Cell} (h : c ∈ cellsFrom a bs) :
    a ≤ c.1 ∧ c.1 < a + bs.length ∧ c.2 ≠ Memory.unlisted := by
  induction bs generalizing a with
  | nil => simp [cellsFrom] at h
  | cons b rest ih =>
    simp only [cellsFrom] at h
    split at h
    · have := ih _ h
      simp only [List.length_cons]
      exact ⟨by omega, by omega, this.2.2⟩
    · rename_i hb
      rcases List.mem_cons.1 h with rfl | h
      · simp [hb]
      · have := ih _ h
        simp only [List.length_cons]
        exact ⟨by omega, by omega, this.2.2⟩

theorem cellsFrom_sorted : (cellsFrom a bs).Pairwise fun c d => c.1 < d.1 := by
  induction bs generalizing a with
  | nil => simp [cellsFrom]
  | cons b rest ih =>
    simp only [cellsFrom]
    split
    · exact ih _
    · refine List.pairwise_cons.2 ⟨fun c hc => ?_, ih _⟩
      have := cellsFrom_ge _ _ hc
      exact this.1

theorem ofBytes_wf : (Memory.ofBytes bs).wf := by
  refine ⟨cellsFrom_sorted _ _, fun c hc => ?_⟩
  have := cellsFrom_ge _ _ hc
  exact ⟨by simpa [Memory.ofBytes] using this.2.1, this.2.2⟩

theorem empty_wf : Memory.empty.wf := ofBytes_wf []

theorem lookupCell_cellsFrom :
    lookupCell (cellsFrom a bs) y = if h : a ≤ y ∧ y < a + bs.length then bs[y - a] else Memory.unlisted := by
  induction bs generalizing a with
  | nil => simp [cellsFrom, lookupCell]
  | cons b rest ih =>
    have key : (if a = y then b else lookupCell (cellsFrom (a + 1) rest) y) =
        if h : a ≤ y ∧ y < a + (b :: rest).length then (b :: rest)[y - a] else Memory.unlisted := by
      by_cases hy : a = y
      · subst hy; simp
      · simp only [hy, if_false, ih]
        by_cases hr : a + 1 ≤ y ∧ y < a + 1 + rest.length
        · have hr' : a ≤ y ∧ y < a + (b :: rest).length := by simp; omega
          have : y - a = (y - (a + 1)) + 1 := by omega
          simp only [hr, hr', and_self, dite_true]
          simp [this]
        · have hr' : ¬ (a ≤ y ∧ y < a + (b :: rest).length) := by simp; omega
          simp only [hr, hr', dite_false]
    rw [← key]
    simp only [cellsFrom]
    split
    · rename_i hb
      by_cases hy : a = y
      · subst hy
        rw [if_pos rfl, ih, dif_neg (by omega)]
        exact hb.symm
      · rw [if_neg hy]
    · simp only [lookupCell]

/-- A loaded buffer reads as the bytes it was given. -/
theorem get_ofBytes (h : y < bs.length) : (Memory.ofBytes bs).get y = bs[y] := by
  simp [Memory.ofBytes, Memory.get, lookupCell_cellsFrom, h]

@[simp] theorem toBytes_length : m.toBytes.length = m.len := by simp [Memory.toBytes]

@[simp] theorem toBytes_getElem (h : y < m.toBytes.length) : m.toBytes[y] = m.get y := by
  simp [Memory.toBytes]

@[simp] theorem window_length : (m.window a n).length = min n (m.len - a) := by simp [Memory.window]

@[simp] theorem window_getElem (h : y < (m.window a n).length) : (m.window a n)[y] = m.get (a + y) := by
  simp [Memory.window]

theorem placeAt_wf (h : m.wf) : (m.placeAt a bs).wf := by
  refine setBytes_wf _ _ _ ⟨h.1, fun c hc => ⟨?_, (h.2 c hc).2⟩⟩
  have := (h.2 c hc).1
  simp only
  omega

end Sys2Proof.Machine
end

