-- ==== Sys2Proof/Laws/HostInterface.lean ====
section
/-! SUPPORT. The host commands in the cases where they are accepted, and what each leaves alone. -/

namespace Sys2Proof.Machine

variable (p : Params) (s : State) (bs : List Byte)

/-- LoadProgram, accepted. -/
theorem hostLoadProgram_ready (h : s.status.state = .ready) (hl : bs.length ≤ p.maxProgLen) :
    hostCommand p (.loadProgram bs) s = ({ s with prog := .ofBytes bs }, .done) := if_pos ⟨h, hl⟩

/-- LoadData, accepted. -/
theorem hostLoadData_idle (h : s.status.state ≠ .running) (hl : bs.length ≤ maxDataLen) :
    hostCommand p (.loadData bs) s = ({ s with data := .ofBytes bs }, .done) := if_pos ⟨h, hl⟩

/-- No command but Reset writes pc (R254). -/
theorem hostCommand_pc (c : HostCommand) (h : c ≠ .reset) : (hostCommand p c s).1.pc = s.pc := by
  cases c with
  | reset => exact absurd rfl h
  | loadProgram bs => simp only [hostCommand, hostLoadProgram]; split <;> rfl
  | loadData bs => simp only [hostCommand, hostLoadData]; split <;> rfl
  | writeReg i v => simp only [hostCommand, hostWriteReg]; split <;> [split; skip] <;> rfl
  | start => simp only [hostCommand, hostStart]; split <;> rfl
  | read => simp only [hostCommand, hostRead]; split <;> rfl

end Sys2Proof.Machine
end

