-- ==== Sys2Proof/Laws/PerInstr.lean ====
section
/-! SUPPORT. Facts about every instruction as syntax, one lemma per constructor: the opcode byte an instruction is
encoded with decodes to its tag, and the encoding has the tag's length (30_encoding.md R60, R63). -/

namespace Sys2Proof.Laws.OpcodeFixesTag

/-- The first byte of a well-formed instruction decodes to its tag, and the tag fixes the number of bytes. -/
def Statement (i : Instr) : Prop :=
  i.wellFormed = true → ∃ op more, encode i = op :: more ∧ decodeTag op = i.tag ∧ (encode i).length = i.tag.len

theorem hlt : Statement .hlt := fun _ => ⟨_, _, rfl, rfl, rfl⟩

theorem load (r : Byte) (addr : Word) : Statement (.load r addr) := fun _ => ⟨_, _, rfl, rfl, rfl⟩

theorem mov (src dst : Byte) : Statement (.mov src dst) := fun _ => ⟨_, _, rfl, rfl, rfl⟩

theorem stor (r : Byte) (addr : Word) : Statement (.stor r addr) := fun _ => ⟨_, _, rfl, rfl, rfl⟩

theorem ldim (r : Byte) (imm : Word) : Statement (.ldim r imm) := fun _ => ⟨_, _, rfl, rfl, rfl⟩

theorem illegal (opcode : Byte) : Statement (.illegal opcode) := fun h =>
  ⟨_, _, rfl, decodeTag_illegal (by simpa [Instr.wellFormed] using h), rfl⟩

end Sys2Proof.Laws.OpcodeFixesTag
end

