-- ==== Sys2Proof/Laws/State.lean ====
section
/-! SUPPORT. What each named update does to each field of State, one lemma per field per update. -/

namespace Sys2Proof.Machine

variable (s : State) (i j : Fin numRegs) (v : Word) (n a : Nat) (r : RunState) (c : FaultCause) (bs : List Byte)

@[simp] theorem setReg_pc : (s.setReg i v).pc = s.pc := rfl
@[simp] theorem setReg_prog : (s.setReg i v).prog = s.prog := rfl
@[simp] theorem setReg_data : (s.setReg i v).data = s.data := rfl
@[simp] theorem setReg_status : (s.setReg i v).status = s.status := rfl
theorem setReg_reg : (s.setReg i v).reg j = if j = i then v else s.reg j := by
  simp only [State.setReg, State.reg, Fin.getElem_fin, Vector.getElem_set, Fin.ext_iff, eq_comm]
@[simp] theorem setReg_reg_self : (s.setReg i v).reg i = v := by simp [setReg_reg]

@[simp] theorem advance_pc : (s.advance n).pc = s.pc + n := rfl
@[simp] theorem advance_regs : (s.advance n).regs = s.regs := rfl
@[simp] theorem advance_reg : (s.advance n).reg j = s.reg j := rfl
@[simp] theorem advance_prog : (s.advance n).prog = s.prog := rfl
@[simp] theorem advance_data : (s.advance n).data = s.data := rfl
@[simp] theorem advance_status : (s.advance n).status = s.status := rfl

@[simp] theorem store32_pc : (s.store32 a v).pc = s.pc := rfl
@[simp] theorem store32_regs : (s.store32 a v).regs = s.regs := rfl
@[simp] theorem store32_reg : (s.store32 a v).reg j = s.reg j := rfl
@[simp] theorem store32_prog : (s.store32 a v).prog = s.prog := rfl
@[simp] theorem store32_data : (s.store32 a v).data = s.data.write32 a v := rfl
@[simp] theorem store32_status : (s.store32 a v).status = s.status := rfl

@[simp] theorem setRunState_pc : (s.setRunState r).pc = s.pc := rfl
@[simp] theorem setRunState_regs : (s.setRunState r).regs = s.regs := rfl
@[simp] theorem setRunState_reg : (s.setRunState r).reg j = s.reg j := rfl
@[simp] theorem setRunState_prog : (s.setRunState r).prog = s.prog := rfl
@[simp] theorem setRunState_data : (s.setRunState r).data = s.data := rfl
@[simp] theorem setRunState_state : (s.setRunState r).status.state = r := rfl
@[simp] theorem setRunState_cause : (s.setRunState r).status.cause = s.status.cause := rfl

@[simp] theorem takeFault_pc : (takeFault c s).pc = s.pc + 1 := rfl
@[simp] theorem takeFault_regs : (takeFault c s).regs = s.regs := rfl
@[simp] theorem takeFault_reg : (takeFault c s).reg j = s.reg j := rfl
@[simp] theorem takeFault_prog : (takeFault c s).prog = s.prog := rfl
@[simp] theorem takeFault_data : (takeFault c s).data = s.data := rfl
@[simp] theorem takeFault_state : (takeFault c s).status.state = .faulted := rfl
@[simp] theorem takeFault_cause : (takeFault c s).status.cause = some c := rfl

@[simp] theorem exhaust_pc : (exhaust s).pc = s.pc := rfl
@[simp] theorem exhaust_regs : (exhaust s).regs = s.regs := rfl
@[simp] theorem exhaust_reg : (exhaust s).reg j = s.reg j := rfl
@[simp] theorem exhaust_prog : (exhaust s).prog = s.prog := rfl
@[simp] theorem exhaust_data : (exhaust s).data = s.data := rfl
@[simp] theorem exhaust_state : (exhaust s).status.state = .exhausted := rfl
@[simp] theorem exhaust_cause : (exhaust s).status.cause = s.status.cause := rfl

@[simp] theorem placeInstr_pc : (s.placeInstr bs).pc = s.pc := rfl
@[simp] theorem placeInstr_regs : (s.placeInstr bs).regs = s.regs := rfl
@[simp] theorem placeInstr_prog : (s.placeInstr bs).prog = s.prog.placeAt s.pc bs := rfl
@[simp] theorem placeInstr_data : (s.placeInstr bs).data = s.data := rfl
@[simp] theorem placeInstr_status : (s.placeInstr bs).status = { state := .running, cause := none } := rfl

/-- Two states with the same registers, pc, buffers and STATUS are the same state. -/
theorem State.ext_of_reg {t u : State} (hr : ∀ i, t.reg i = u.reg i) (hpc : t.pc = u.pc) (hp : t.prog = u.prog)
    (hd : t.data = u.data) (hs : t.status = u.status) : t = u := by
  obtain ⟨tr, _, _, _, _⟩ := t
  obtain ⟨ur, _, _, _, _⟩ := u
  have : tr = ur := Vector.ext fun i hi => hr ⟨i, hi⟩
  simp_all

@[simp] theorem reset_reg : State.reset.reg i = 0 := by simp [State.reset, State.reg]
@[simp] theorem reset_pc : State.reset.pc = 0 := rfl

end Sys2Proof.Machine
end

