-- ==== Sys2Proof/Laws/Step.lean ====
section
/-! SUPPORT. What a step can do, said once: one lemma per operand check and per meaning, and the case list of a step. -/

namespace Sys2Proof

open Machine

variable {s t : State} {r src dst op : Byte} {addr imm : Word} {i j : Fin numRegs}

/-! ### The register check -/

theorem regIndex_eq_some : regIndex r = some i ↔ i.val = r.toNat := by
  unfold regIndex
  split <;> rename_i h
  · simp [Fin.ext_iff, eq_comm]
  · simp only [reduceCtorEq, false_iff]
    exact fun hi => h (hi ▸ i.isLt)

theorem regIndex_eq_none : regIndex r = none ↔ ¬ validReg r := by
  unfold regIndex
  split <;> simp_all

theorem regIndex_of_valid (h : validReg r) : regIndex r = some ⟨r.toNat, h⟩ := by
  simp [regIndex, h]

/-! ### The meanings -/

/-- LDIM, case by case (R140). -/
theorem execLdim_cases (r : Byte) (imm : Word) (s : State) :
    (s.truncatedAt 6 ∧ execLdim r imm s = .next (takeFault .truncatedInstruction s)) ∨
    (s.pc + 6 ≤ s.prog.len ∧ ¬ validReg r ∧ execLdim r imm s = .next (takeFault .registerIndexOutOfRange s)) ∨
    (s.pc + 6 ≤ s.prog.len ∧ ∃ i : Fin numRegs, i.val = r.toNat ∧
      execLdim r imm s = .next ((s.setReg i imm).advance 6)) := by
  unfold execLdim
  by_cases ht : s.truncatedAt 6
  · simp [ht]
  · have ht' : s.pc + 6 ≤ s.prog.len := by simpa [State.truncatedAt] using ht
    cases hr : regIndex r with
    | none => simp [ht, ht', regIndex_eq_none.1 hr]
    | some i => exact .inr (.inr ⟨ht', i, regIndex_eq_some.1 hr, by simp [ht]⟩)

/-- MOV, case by case (R141). -/
theorem execMov_cases (src dst : Byte) (s : State) :
    (s.truncatedAt 3 ∧ execMov src dst s = .next (takeFault .truncatedInstruction s)) ∨
    (s.pc + 3 ≤ s.prog.len ∧ (¬ validReg src ∨ ¬ validReg dst) ∧
      execMov src dst s = .next (takeFault .registerIndexOutOfRange s)) ∨
    (s.pc + 3 ≤ s.prog.len ∧ ∃ i j : Fin numRegs, i.val = src.toNat ∧ j.val = dst.toNat ∧
      execMov src dst s = .next ((s.setReg j (s.reg i)).advance 3)) := by
  unfold execMov
  by_cases ht : s.truncatedAt 3
  · simp [ht]
  · have ht' : s.pc + 3 ≤ s.prog.len := by simpa [State.truncatedAt] using ht
    cases hs : regIndex src with
    | none => simp [ht, ht', regIndex_eq_none.1 hs]
    | some i =>
      cases hd : regIndex dst with
      | none => simp [ht, ht', regIndex_eq_none.1 hd]
      | some j => exact .inr (.inr ⟨ht', i, j, regIndex_eq_some.1 hs, regIndex_eq_some.1 hd, by simp [ht]⟩)

/-- LOAD, case by case (R150). -/
theorem execLoad_cases (r : Byte) (addr : Word) (s : State) :
    (s.truncatedAt 6 ∧ execLoad r addr s = .next (takeFault .truncatedInstruction s)) ∨
    (s.pc + 6 ≤ s.prog.len ∧ ¬ validReg r ∧ execLoad r addr s = .next (takeFault .registerIndexOutOfRange s)) ∨
    (s.pc + 6 ≤ s.prog.len ∧ validReg r ∧ ¬ s.data.inBounds addr.toNat ∧
      execLoad r addr s = .next (takeFault .dataAddressOutOfBounds s)) ∨
    (s.pc + 6 ≤ s.prog.len ∧ s.data.inBounds addr.toNat ∧ ∃ i : Fin numRegs, i.val = r.toNat ∧
      execLoad r addr s = .next ((s.setReg i (s.data.read32 addr.toNat)).advance 6)) := by
  unfold execLoad
  by_cases ht : s.truncatedAt 6
  · simp [ht]
  · have ht' : s.pc + 6 ≤ s.prog.len := by simpa [State.truncatedAt] using ht
    cases hr : regIndex r with
    | none => simp [ht, ht', regIndex_eq_none.1 hr]
    | some i =>
      have hi := regIndex_eq_some.1 hr
      have hv : validReg r := lt_of_eq_of_lt hi.symm i.isLt
      by_cases hb : s.data.inBounds addr.toNat
      · exact .inr (.inr (.inr ⟨ht', hb, i, hi, by simp only [ht, effectiveAddr, hb, if_true, if_false]⟩))
      · exact .inr (.inr (.inl ⟨ht', hv, hb, by simp only [ht, effectiveAddr, hb, if_false]⟩))

/-- STOR, case by case (R151). -/
theorem execStor_cases (r : Byte) (addr : Word) (s : State) :
    (s.truncatedAt 6 ∧ execStor r addr s = .next (takeFault .truncatedInstruction s)) ∨
    (s.pc + 6 ≤ s.prog.len ∧ ¬ validReg r ∧ execStor r addr s = .next (takeFault .registerIndexOutOfRange s)) ∨
    (s.pc + 6 ≤ s.prog.len ∧ validReg r ∧ ¬ s.data.inBounds addr.toNat ∧
      execStor r addr s = .next (takeFault .dataAddressOutOfBounds s)) ∨
    (s.pc + 6 ≤ s.prog.len ∧ s.data.inBounds addr.toNat ∧ ∃ i : Fin numRegs, i.val = r.toNat ∧
      execStor r addr s = .next ((s.store32 addr.toNat (s.reg i)).advance 6)) := by
  unfold execStor
  by_cases ht : s.truncatedAt 6
  · simp [ht]
  · have ht' : s.pc + 6 ≤ s.prog.len := by simpa [State.truncatedAt] using ht
    cases hr : regIndex r with
    | none => simp [ht, ht', regIndex_eq_none.1 hr]
    | some i =>
      have hi := regIndex_eq_some.1 hr
      have hv : validReg r := lt_of_eq_of_lt hi.symm i.isLt
      by_cases hb : s.data.inBounds addr.toNat
      · exact .inr (.inr (.inr ⟨ht', hb, i, hi, by simp only [ht, effectiveAddr, hb, if_true, if_false]⟩))
      · exact .inr (.inr (.inl ⟨ht', hv, hb, by simp only [ht, effectiveAddr, hb, if_false]⟩))

/-! ### The window at pc -/

/-- The fetched bytes, when the first of them exists. -/
theorem fetchBytes_cons (h : s.pc < s.prog.len) :
    s.fetchBytes = opcodeAt s :: s.prog.window (s.pc + 1) (min 5 (s.prog.len - (s.pc + 1))) := by
  unfold State.fetchBytes Memory.window opcodeAt maxInstrLen
  obtain ⟨k, hk⟩ : ∃ k, min 6 (s.prog.len - s.pc) = k + 1 := ⟨min 6 (s.prog.len - s.pc) - 1, by omega⟩
  have : min (min 5 (s.prog.len - (s.pc + 1))) (s.prog.len - (s.pc + 1)) = k := by omega
  rw [hk, this, List.range'_succ, List.map_cons]

theorem fetchBytes_nil : s.fetchBytes = [] ↔ s.prog.len ≤ s.pc := by
  rw [← List.length_eq_zero_iff, State.fetchBytes, window_length, maxInstrLen]
  omega

theorem fetchBytes_length : s.fetchBytes.length = min 6 (s.prog.len - s.pc) := by
  rw [State.fetchBytes, window_length, maxInstrLen]

/-- The fetched bytes of a long instruction that is wholly there. -/
theorem fetchBytes_six (h : s.pc + 6 ≤ s.prog.len) :
    s.fetchBytes = [opcodeAt s, s.prog.get (s.pc + 1), s.prog.get (s.pc + 2), s.prog.get (s.pc + 3),
      s.prog.get (s.pc + 4), s.prog.get (s.pc + 5)] := by
  have : min 6 (s.prog.len - s.pc) = 6 := by omega
  simp only [State.fetchBytes, Memory.window, maxInstrLen, this]
  rfl

/-- The fetched bytes of a MOV that is wholly there. -/
theorem fetchBytes_three (h : s.pc + 3 ≤ s.prog.len) :
    ∃ more, s.fetchBytes = opcodeAt s :: s.prog.get (s.pc + 1) :: s.prog.get (s.pc + 2) :: more := by
  obtain ⟨k, hk⟩ : ∃ k, min 6 (s.prog.len - s.pc) = k + 3 := ⟨min 6 (s.prog.len - s.pc) - 3, by omega⟩
  simp only [State.fetchBytes, Memory.window, maxInstrLen, hk, List.range'_succ, List.map_cons]
  exact ⟨_, rfl⟩

/-! ### One step -/

theorem step_running (h : s.status.state = .running) : step s = cycle s := by simp [step, h]

theorem step_idle (h : s.status.state ≠ .running) : step s = .next s := by
  unfold step
  split <;> simp_all

/-- Everything a step can do: the states it can lead to, each with the condition under which it does. -/
inductive StepCase (s : State) : State → Prop where
  | idle (h : s.status.state ≠ .running) : StepCase s s
  | exhausted (h : s.status.state = .running) (hpc : s.prog.len ≤ s.pc) : StepCase s (exhaust s)
  | illegal (h : s.status.state = .running) (hpc : s.pc < s.prog.len) (op : 5 ≤ (opcodeAt s).toNat) :
      StepCase s (takeFault .illegalOpcode s)
  | truncated (h : s.status.state = .running) (hpc : s.pc < s.prog.len) (op : decodeTag (opcodeAt s) ≠ .illegal)
      (hlen : s.prog.len < s.pc + (decodeTag (opcodeAt s)).len) : StepCase s (takeFault .truncatedInstruction s)
  | badRegister (h : s.status.state = .running) (hlen : s.pc + (decodeTag (opcodeAt s)).len ≤ s.prog.len)
      (hbad : NamesBadRegister s) : StepCase s (takeFault .registerIndexOutOfRange s)
  | outOfBounds (h : s.status.state = .running) (hlen : s.pc + 6 ≤ s.prog.len) (hok : ¬ NamesBadRegister s)
      (hoob : AccessesOutOfBounds s) : StepCase s (takeFault .dataAddressOutOfBounds s)
  | hlt (h : s.status.state = .running) (hpc : s.pc < s.prog.len) (op : opcodeAt s = 0) :
      StepCase s ((s.advance 1).setRunState .halted)
  | load (h : s.status.state = .running) (hlen : s.pc + 6 ≤ s.prog.len) (op : opcodeAt s = 1) (i : Fin numRegs)
      (hi : i.val = (s.prog.get (s.pc + 1)).toNat) (hb : (fieldAt s).toNat + 4 ≤ s.data.len) :
      StepCase s ((s.setReg i (s.data.read32 (fieldAt s).toNat)).advance 6)
  | mov (h : s.status.state = .running) (hlen : s.pc + 3 ≤ s.prog.len) (op : opcodeAt s = 2) (i j : Fin numRegs)
      (hi : i.val = (s.prog.get (s.pc + 1)).toNat) (hj : j.val = (s.prog.get (s.pc + 2)).toNat) :
      StepCase s ((s.setReg j (s.reg i)).advance 3)
  | stor (h : s.status.state = .running) (hlen : s.pc + 6 ≤ s.prog.len) (op : opcodeAt s = 3) (i : Fin numRegs)
      (hi : i.val = (s.prog.get (s.pc + 1)).toNat) (hb : (fieldAt s).toNat + 4 ≤ s.data.len) :
      StepCase s ((s.store32 (fieldAt s).toNat (s.reg i)).advance 6)
  | ldim (h : s.status.state = .running) (hlen : s.pc + 6 ≤ s.prog.len) (op : opcodeAt s = 4) (i : Fin numRegs)
      (hi : i.val = (s.prog.get (s.pc + 1)).toNat) :
      StepCase s ((s.setReg i (fieldAt s)).advance 6)

/-- The decoder's answer at pc for an instruction that is wholly in the program buffer. -/
theorem decode_fetchBytes (hpc : s.pc < s.prog.len) (hlen : s.pc + (decodeTag (opcodeAt s)).len ≤ s.prog.len) :
    ∃ rest, decode s.fetchBytes = .ok (
      match decodeTag (opcodeAt s) with
      | .halt => .hlt
      | .loadFromData => .load (s.prog.get (s.pc + 1)) (fieldAt s)
      | .moveRegister => .mov (s.prog.get (s.pc + 1)) (s.prog.get (s.pc + 2))
      | .storeToData => .stor (s.prog.get (s.pc + 1)) (fieldAt s)
      | .loadImmediate => .ldim (s.prog.get (s.pc + 1)) (fieldAt s)
      | .illegal => .illegal (opcodeAt s), rest) := by
  cases ht : decodeTag (opcodeAt s) <;> rw [ht] at hlen
  case halt => exact ⟨_, by rw [fetchBytes_cons hpc]; simp only [decode, ht]; rfl⟩
  case illegal => exact ⟨_, by rw [fetchBytes_cons hpc]; simp only [decode, ht]; rfl⟩
  case moveRegister =>
    obtain ⟨more, hm⟩ := fetchBytes_three hlen
    exact ⟨more, by rw [hm]; simp only [decode, ht]⟩
  all_goals exact ⟨[], by rw [fetchBytes_six hlen]; simp only [decode, ht]; rfl⟩

/-- The decoder stops short at pc when the instruction there is not wholly in the program buffer. -/
theorem decode_fetchBytes_truncated (hpc : s.pc < s.prog.len)
    (hlen : s.prog.len < s.pc + (decodeTag (opcodeAt s)).len) :
    decode s.fetchBytes = .error (.truncated (decodeTag (opcodeAt s))) := by
  cases hd : decode s.fetchBytes with
  | error e =>
    cases e with
    | noBytes => exact absurd (fetchBytes_nil.1 (decode_noBytes.1 hd)) (by omega)
    | truncated t =>
      obtain ⟨op, more, hb, rfl, -, -⟩ := decode_truncated hd
      rw [fetchBytes_cons hpc, List.cons.injEq] at hb
      rw [hb.1]
  | ok p =>
    obtain ⟨i, rest⟩ := p
    obtain ⟨op, more, hb, ht, hl⟩ := decode_ok hd
    rw [fetchBytes_cons hpc, List.cons.injEq] at hb
    rw [fetchBytes_length, ht, ← hb.1] at hl
    omega

/-- A step always answers a next state, and it is one of the cases above. -/
theorem step_cases (s : State) : ∃ t, step s = .next t ∧ StepCase s t := by
  by_cases h : s.status.state = .running
  swap
  · exact ⟨s, step_idle h, .idle h⟩
  rw [step_running h]
  by_cases hpc : s.prog.len ≤ s.pc
  · exact ⟨exhaust s, by simp [cycle, decode_noBytes.2 (fetchBytes_nil.2 hpc)], .exhausted h hpc⟩
  have hpc : s.pc < s.prog.len := by omega
  by_cases hlen : s.pc + (decodeTag (opcodeAt s)).len ≤ s.prog.len
  swap
  · have hlen : s.prog.len < s.pc + (decodeTag (opcodeAt s)).len := by omega
    refine ⟨_, by simp only [cycle, decode_fetchBytes_truncated hpc hlen], .truncated h hpc ?_ hlen⟩
    intro hill
    rw [hill, Tag.len] at hlen
    omega
  obtain ⟨rest, hd⟩ := decode_fetchBytes hpc hlen
  simp only [cycle, hd]
  rcases decodeTag_cases (opcodeAt s) with ⟨op, ht⟩ | ⟨op, ht⟩ | ⟨op, ht⟩ | ⟨op, ht⟩ | ⟨op, ht⟩ | ⟨op, ht⟩ <;>
    simp only [ht, Tag.len] at hlen ⊢ <;> simp only [exec]
  · exact ⟨_, rfl, .hlt h hpc op⟩
  · rcases execLoad_cases (s.prog.get (s.pc + 1)) (fieldAt s) s with
      ⟨hl, -⟩ | ⟨_, hb, he⟩ | ⟨_, hv, hb, he⟩ | ⟨_, hb, i, hi, he⟩
    · exact absurd hl (by simp only [State.truncatedAt]; omega)
    · exact ⟨_, he, .badRegister h (by simpa [ht, Tag.len] using hlen) (by simpa [NamesBadRegister, ht] using hb)⟩
    · refine ⟨_, he, .outOfBounds h hlen (by simpa [NamesBadRegister, ht] using hv) ⟨.inl ht, ?_⟩⟩
      simpa [Memory.inBounds] using hb
    · exact ⟨_, he, .load h hlen op i hi hb⟩
  · rcases execMov_cases (s.prog.get (s.pc + 1)) (s.prog.get (s.pc + 2)) s with
      ⟨hl, -⟩ | ⟨_, hb, he⟩ | ⟨_, i, j, hi, hj, he⟩
    · exact absurd hl (by simp only [State.truncatedAt]; omega)
    · exact ⟨_, he, .badRegister h (by simpa [ht, Tag.len] using hlen) (by simpa only [NamesBadRegister, ht] using hb)⟩
    · exact ⟨_, he, .mov h hlen op i j hi hj⟩
  · rcases execStor_cases (s.prog.get (s.pc + 1)) (fieldAt s) s with
      ⟨hl, -⟩ | ⟨_, hb, he⟩ | ⟨_, hv, hb, he⟩ | ⟨_, hb, i, hi, he⟩
    · exact absurd hl (by simp only [State.truncatedAt]; omega)
    · exact ⟨_, he, .badRegister h (by simpa [ht, Tag.len] using hlen) (by simpa [NamesBadRegister, ht] using hb)⟩
    · refine ⟨_, he, .outOfBounds h hlen (by simpa [NamesBadRegister, ht] using hv) ⟨.inr ht, ?_⟩⟩
      simpa [Memory.inBounds] using hb
    · exact ⟨_, he, .stor h hlen op i hi hb⟩
  · rcases execLdim_cases (s.prog.get (s.pc + 1)) (fieldAt s) s with ⟨hl, -⟩ | ⟨_, hb, he⟩ | ⟨_, i, hi, he⟩
    · exact absurd hl (by simp only [State.truncatedAt]; omega)
    · exact ⟨_, he, .badRegister h (by simpa [ht, Tag.len] using hlen) (by simpa [NamesBadRegister, ht] using hb)⟩
    · exact ⟨_, he, .ldim h hlen op i hi⟩
  · exact ⟨_, rfl, .illegal h hpc op⟩

/-- The inversion of a step. -/
theorem step_inv (h : step s = .next t) : StepCase s t := by
  obtain ⟨t', h', hc⟩ := step_cases s
  rw [h] at h'
  cases h'
  exact hc

/-- A run of k + 1 steps is one step and a run of k. -/
theorem run_of_step {k : Nat} (h : step s = .next t) :
    Host.Core.run Sys2Proof.core (k + 1) s = Host.Core.run Sys2Proof.core k t := by
  have h' : Sys2Proof.core.step s = .next t := h
  simp only [Host.Core.run, h']

end Sys2Proof
end

