-- ==== Sys2Proof/Tests/Slice0.lean ====
section
/-! SUPPORT. The model's own tests. Expected values come from 95_test_vectors.md (the vector is named), from the
encodings of 30_encoding.md R61, R64 and R68, or by hand from the rule named. The witness theorems show, for each
statement with hypotheses, a concrete input that meets them, at the boundary of each clause. -/

namespace Sys2Proof.Tests

open Machine

/-- A running core with pc 0, these bytes as program and data, and register `i` preset to `v`. -/
def sample (prog data : List Byte) (i : Fin numRegs := 0) (v : Word := 0) : State :=
  { State.reset with prog := .ofBytes prog, data := .ofBytes data,
                     status := { state := .running, cause := none } }.setReg i v

/-- One step, with what to check of the next state. -/
def afterStep (s : State) (check : State → Bool) : Bool :=
  match step s with
  | .next t => check t
  | .fault _ => false
  | .refused _ => false

/-- STATUS is (FAULTED, `c`) and pc is `a` + 1. -/
def faultedAt (a : Nat) (c : FaultCause) (t : State) : Bool :=
  t.pc == a + 1 && t.status == { state := .faulted, cause := some c }

/-! ### WellFormed, decode and encode -/

theorem test_wellFormed_refuses_illegal_below_five : (Instr.illegal 0x04).wellFormed = false := by decide

theorem test_wellFormed_accepts_illegal_five : (Instr.illegal 0x05).wellFormed = true := by decide

/-- R64, format N: 0000 0000. -/
theorem test_decode_hlt : decode [0b00000000] = .ok (.hlt, []) := by decide

/-- R61, format RA: opcode 0000 0001, register 2, address 0x04030201 least significant byte first. -/
theorem test_decode_load :
    decode [0b00000001, 0b00000010, 0b00000001, 0b00000010, 0b00000011, 0b00000100] = .ok (.load 2 0x04030201, []) := by
  decide

/-- R61, format RR: opcode 0000 0010, then the source 3, then the destination 9. -/
theorem test_decode_mov : decode [0b00000010, 0b00000011, 0b00001001] = .ok (.mov 3 9, []) := by decide

/-- R61, format RA with opcode 0000 0011. -/
theorem test_decode_stor :
    decode [0b00000011, 0b00011111, 0b00000000, 0b00000000, 0b00000000, 0b10000000] = .ok (.stor 31 0x80000000, []) := by
  decide

/-- R61, format RI: E4 of 95_test_vectors.md. -/
theorem test_decode_ldim : decode [0x04, 0x07, 0x78, 0x56, 0x34, 0x12] = .ok (.ldim 7 0x12345678, []) := by decide

/-- R65: the first and the last illegal byte, each one byte long. -/
theorem test_decode_illegal :
    decode [0x05, 0x04] = .ok (.illegal 0x05, [0x04]) ∧ decode [0xFF] = .ok (.illegal 0xFF, []) := by decide

/-- R104: E9 and V25 of 95_test_vectors.md. -/
theorem test_decode_truncated :
    decode [0x04, 0x01, 0x02, 0x03] = .error (.truncated .loadImmediate) ∧
      decode [0x02, 0x01] = .error (.truncated .moveRegister) ∧ decode [] = .error .noBytes := by decide

/-- R68: the bytes of `LDIM r1, -2` and of `STOR r1, [2]` (P1, P2). -/
theorem test_encode :
    encode (.ldim 1 0xFFFFFFFE) = [0x04, 0x01, 0xFE, 0xFF, 0xFF, 0xFF] ∧
      encode (.stor 1 2) = [0x03, 0x01, 0x02, 0x00, 0x00, 0x00] := by decide

/-- The opcode table's numbering: a word of a row whose operand bits are all zero, and one with operands. -/
theorem test_decodeTableWord :
    decodeTableWord 8 0x04 = some (.ldim 0 0) ∧ decodeTableWord 48 0x123456780704 = some (.ldim 7 0x12345678) ∧
      decodeTableWord 24 0x090302 = some (.mov 3 9) ∧ decodeTableWord 8 0x80 = some (.illegal 0x80) := by decide

/-- R68. -/
theorem test_asm_ldim : (Instr.ldim 0 0xFFFFFFFE).asm = "LDIM r0, -2" := by rfl

/-- R31: (FAULTED, DataAddressOutOfBounds) is 00 100 100. -/
theorem test_status_byte :
    Status.toByte { state := .faulted, cause := some .dataAddressOutOfBounds } = 0b00100100 := by decide

/-! ### One step of each instruction -/

/-- E2. -/
theorem test_hlt :
    afterStep (sample [0x00] []) (fun t => t.pc == 1 && t.status == { state := .halted, cause := none }) = true := by
  decide

/-- E3. -/
theorem test_illegal : afterStep (sample [0x05] []) (faultedAt 0 .illegalOpcode) = true := by decide

/-- V11: the largest immediate into the last register. -/
theorem test_ldim :
    afterStep (sample [0x04, 0x1F, 0xFF, 0xFF, 0xFF, 0x7F] [])
      (fun t => t.reg 31 == 0x7FFFFFFF && t.pc == 6 && t.status.state == .running) = true := by decide

/-- V17: truncation outranks a bad register. -/
theorem test_ldim_truncated :
    afterStep (sample [0x04, 0x28, 0x01, 0x02, 0x03] []) (faultedAt 0 .truncatedInstruction) = true := by decide

/-- E7: source first, and the source is kept. -/
theorem test_mov :
    afterStep (sample [0x02, 0x03, 0x09] [] 3 0xFFFFFFF9)
      (fun t => t.reg 9 == 0xFFFFFFF9 && t.reg 3 == 0xFFFFFFF9 && t.pc == 3) = true := by decide

/-- V23: a bad destination, nothing written. -/
theorem test_mov_bad_dst :
    afterStep (sample [0x02, 0x00, 0x20] [] 0 5)
      (fun t => faultedAt 0 .registerIndexOutOfRange t && t.reg 0 == 5) = true := by decide

/-- V30: an unaligned little-endian load. -/
theorem test_load :
    afterStep (sample [0x01, 0x02, 0x01, 0x00, 0x00, 0x00] [0x11, 0x22, 0x33, 0x44, 0x55])
      (fun t => t.reg 2 == 0x55443322 && t.pc == 6) = true := by decide

/-- V33: the bounds sum does not wrap. -/
theorem test_load_no_wrap :
    afterStep (sample [0x01, 0x02, 0xFF, 0xFF, 0xFF, 0xFF] [0, 0, 0, 0, 0, 0, 0, 0])
      (faultedAt 0 .dataAddressOutOfBounds) = true := by decide

/-- V41: an unaligned store, only four bytes change. -/
theorem test_stor :
    afterStep (sample [0x03, 0x04, 0x02, 0x00, 0x00, 0x00] [0xAA, 0xAA, 0xAA, 0xAA, 0xAA, 0xAA, 0xAA, 0xAA] 4 0x12345678)
      (fun t => t.data.toBytes == [0xAA, 0xAA, 0x78, 0x56, 0x34, 0x12, 0xAA, 0xAA]) = true := by decide

/-- V42: no partial write. -/
theorem test_stor_out_of_bounds :
    afterStep (sample [0x03, 0x04, 0x05, 0x00, 0x00, 0x00] [0xAA, 0xAA, 0xAA, 0xAA, 0xAA, 0xAA, 0xAA, 0xAA] 4 1)
      (fun t => faultedAt 0 .dataAddressOutOfBounds t &&
        t.data.toBytes == [0xAA, 0xAA, 0xAA, 0xAA, 0xAA, 0xAA, 0xAA, 0xAA]) = true := by decide

/-- V45: storing zero bytes keeps the canonical form, so equal buffers are equal data. -/
theorem test_stor_zero_is_canonical :
    afterStep (sample [0x03, 0x01, 0x00, 0x00, 0x00, 0x00] [9, 9, 9, 9])
      (fun t => t.data == .ofBytes [0, 0, 0, 0]) = true := by decide

/-- V1: the empty program. -/
theorem test_exhausted :
    afterStep (sample [] []) (fun t => t.pc == 0 && t.status == { state := .exhausted, cause := none }) = true := by
  decide

/-- The host's table word runs as the first instruction after reset. -/
theorem test_withFetchWord :
    afterStep (State.reset.withFetchWord 48 0x123456780704) (fun t => t.reg 7 == 0x12345678 && t.pc == 6) = true := by
  decide

/-- A reset core that was not started takes no step (R100). -/
theorem test_ready_takes_no_step : afterStep State.reset (fun t => t == State.reset) = true := by decide

/-- P3: a Start in FAULTED is refused (R255). -/
theorem test_start_refused_when_faulted :
    afterStep (sample [0x05] []) (fun t => hostCommand { } .start t == (t, .refused)) = true := by decide

/-! ### Witnesses -/

/-- Running with room for two instructions and eight data bytes, at a MOV r3, r9. -/
def atMov : State := sample [0x02, 0x03, 0x09, 0, 0, 0, 0, 0, 0, 0, 0, 0] [1, 2, 3, 4, 5, 6, 7, 8] 3 7

/-- A core stopped in the given run state. -/
def stopped (r : RunState) (c : Option FaultCause) : State := { State.reset with status := { state := r, cause := c } }

theorem witness_inv_of_sample : Inv { } atMov :=
  ⟨by decide, by decide, by decide, by decide, by decide, by decide, by decide⟩

theorem witness_InvKeptByStep : Inv { } atMov ∧ ∃ t, step atMov = .next t ∧ t.pc = 3 :=
  ⟨witness_inv_of_sample, _, rfl, by decide⟩

theorem witness_InvKeptByHostCommand : Inv { } State.reset :=
  ⟨by decide, by decide, by decide, by decide, by decide, by decide, by decide⟩

theorem witness_ReachableStatesMeetInv :
    Reachable { } (hostCommand { } .start (hostCommand { } (.loadProgram [0x00]) State.reset).1).1 :=
  .host _ (.host _ .reset)

theorem witness_InstructionLengths : decode [0x02, 0x03, 0x09, 0x00] = .ok (.mov 3 9, [0x00]) := by decide

theorem witness_DecodeOfEncode :
    (Instr.illegal 0x05).wellFormed = true ∧ (Instr.ldim 0xFF 0x80000000).wellFormed = true := by decide

theorem witness_EncodeOfDecode : decode [0xFF, 0x00] = .ok (.illegal 0xFF, [0x00]) := by decide

theorem witness_MemReadAndMemWrite : 4 + 4 ≤ (Memory.ofBytes [0, 0, 0, 0, 0xFF, 0xFF, 0xFF, 0xFF]).len ∧ (3 : Nat) < 4 := by
  decide

theorem witness_OverlappingStoreThenLoad :
    (1 : Byte).toNat < numRegs ∧ (2 : Byte).toNat < numRegs ∧ atMov.pc + 12 ≤ atMov.prog.len ∧
      (3 : Word).toNat + 4 ≤ atMov.data.len ∧ (4 : Word).toNat + 4 ≤ atMov.data.len := by decide

theorem witness_LdimRule :
    (sample [4, 1, 2, 3, 4] []).prog.len < 0 + 6 ∧
      (0 + 6 ≤ (sample [4, 32, 0, 0, 0, 0] []).prog.len ∧ 32 ≤ (32 : Byte).toNat) ∧
      (0 + 6 ≤ (sample [4, 31, 0, 0, 0, 0] []).prog.len ∧ (31 : Byte).toNat < 32) := by decide

theorem witness_MovRule :
    (sample [2, 1] []).prog.len < 0 + 3 ∧
      (0 + 3 ≤ (sample [2, 31, 32] []).prog.len ∧ (32 ≤ (31 : Byte).toNat ∨ 32 ≤ (32 : Byte).toNat)) ∧
      (0 + 3 ≤ (sample [2, 31, 0] []).prog.len ∧ (31 : Byte).toNat < 32 ∧ (0 : Byte).toNat < 32) := by decide

/-- V32 and V31 for the two sides of the bound. -/
theorem witness_LoadRule :
    (sample [1, 2, 0, 0, 0] []).prog.len < 0 + 6 ∧
      (0 + 6 ≤ (sample [1, 32, 0, 0, 0, 0] []).prog.len ∧ 32 ≤ (32 : Byte).toNat) ∧
      (0 + 6 ≤ atMov.prog.len ∧ (31 : Byte).toNat < 32 ∧ atMov.data.len < (5 : Word).toNat + 4) ∧
      (0 + 6 ≤ atMov.prog.len ∧ (31 : Byte).toNat < 32 ∧ (4 : Word).toNat + 4 ≤ atMov.data.len) := by decide

/-- V42 for the far side of the bound, the last legal address for the near one. -/
theorem witness_StorRule :
    (sample [3, 4, 0, 0, 0] []).prog.len < 0 + 6 ∧
      (0 + 6 ≤ (sample [3, 32, 0, 0, 0, 0] []).prog.len ∧ 32 ≤ (32 : Byte).toNat) ∧
      (0 + 6 ≤ atMov.prog.len ∧ (0 : Byte).toNat < 32 ∧ atMov.data.len < (5 : Word).toNat + 4) ∧
      (0 + 6 ≤ atMov.prog.len ∧ (31 : Byte).toNat < 32 ∧ (4 : Word).toNat + 4 ≤ atMov.data.len) := by decide

theorem witness_IllegalRule : 5 ≤ (0x05 : Byte).toNat := by decide

theorem witness_IllegalOpcodeFault :
    (sample [5] []).status.state = .running ∧ (sample [5] []).pc < (sample [5] []).prog.len ∧
      5 ≤ (opcodeAt (sample [5] [])).toNat := by decide

theorem witness_TruncatedInstructionFault :
    (sample [3, 1, 0, 0, 0] []).status.state = .running ∧
      (sample [3, 1, 0, 0, 0] []).pc < (sample [3, 1, 0, 0, 0] []).prog.len ∧
      decodeTag (opcodeAt (sample [3, 1, 0, 0, 0] [])) ≠ .illegal ∧
      (sample [3, 1, 0, 0, 0] []).prog.len < 0 + (decodeTag (opcodeAt (sample [3, 1, 0, 0, 0] []))).len := by decide

/-- A MOV whose destination is 32, and a LDIM to register 32. -/
theorem witness_RegisterIndexFault :
    ((sample [2, 0, 32] []).status.state = .running ∧ 0 + (decodeTag (opcodeAt (sample [2, 0, 32] []))).len ≤ 3 ∧
      NamesBadRegister (sample [2, 0, 32] [])) ∧ NamesBadRegister (sample [4, 32, 0, 0, 0, 0] []) :=
  ⟨⟨by decide, by decide, .inr (by decide)⟩, show ¬ validReg _ by decide⟩

/-- A complete STOR of register 31 at `DATA_LEN` − 3. -/
theorem witness_DataAddressFault :
    (sample [3, 31, 1, 0, 0, 0] [0, 0, 0, 0]).status.state = .running ∧
      0 + (decodeTag (opcodeAt (sample [3, 31, 1, 0, 0, 0] [0, 0, 0, 0]))).len ≤
        (sample [3, 31, 1, 0, 0, 0] [0, 0, 0, 0]).prog.len ∧
      ¬ NamesBadRegister (sample [3, 31, 1, 0, 0, 0] [0, 0, 0, 0]) ∧
      AccessesOutOfBounds (sample [3, 31, 1, 0, 0, 0] [0, 0, 0, 0]) :=
  ⟨by decide, by decide, show ¬ ¬ validReg _ by decide, .inr (by decide), by decide⟩

theorem witness_HighestAddressesAlwaysFault :
    atMov.data.len ≤ 2 ^ 32 ∧ 2 ^ 32 - 3 ≤ (0xFFFFFFFD : Word).toNat ∧ atMov.pc + 6 ≤ atMov.prog.len ∧
      (31 : Byte).toNat < 32 := by decide

/-- The last clause's input, free of every fault; the witnesses of the four fault statements meet the others. -/
theorem witness_FaultPriority :
    atMov.status.state = .running ∧ atMov.pc < atMov.prog.len ∧ decodeTag (opcodeAt atMov) ≠ .illegal ∧
      atMov.pc + (decodeTag (opcodeAt atMov)).len ≤ atMov.prog.len ∧ ¬ NamesBadRegister atMov ∧
      ¬ AccessesOutOfBounds atMov :=
  ⟨by decide, by decide, by decide, by decide, show ¬ (¬ validReg _ ∨ ¬ validReg _) by decide,
    fun h => absurd h.1 (by decide)⟩

theorem witness_FaultIsPrecise :
    (sample [5] []).status.state = .running ∧
      ∃ t, step (sample [5] []) = .next t ∧ t.status.state = .faulted := ⟨by decide, _, rfl, rfl⟩

theorem witness_FaultIsSticky :
    (stopped .faulted (some .illegalOpcode)).status.state = .faulted ∧ HostCommand.writeReg 3 1 ≠ .reset := by decide

/-- Both sides: a MOV that meets its duties, and an illegal byte where nothing does. -/
theorem witness_NoFaultExactlyWhenDutiesMet :
    atMov.status.state = .running ∧ atMov.pc < atMov.prog.len ∧
      (Instr.mov 3 9).wellFormed = true ∧ InstrAt atMov (.mov 3 9) ∧ FaultFree atMov (.mov 3 9) ∧
      (sample [5] []).pc < (sample [5] []).prog.len :=
  ⟨by decide, by decide, by decide, ⟨by decide, by decide⟩, ⟨by decide, by decide, by decide⟩, by decide⟩

theorem witness_NoStepUnlessRunning : State.reset.status.state ≠ .running := by decide

/-- The empty program, and a running core that meets the invariant. -/
theorem witness_ExhaustionRule :
    (sample [] []).status.state = .running ∧ (sample [] []).prog.len ≤ (sample [] []).pc ∧ Inv { } (sample [] []) ∧
      Inv { } atMov :=
  ⟨by decide, by decide, ⟨by decide, by decide, by decide, by decide, by decide, by decide, by decide⟩,
    witness_inv_of_sample⟩

theorem witness_StepRunsDecodedInstruction :
    atMov.status.state = .running ∧ ∃ rest, decode atMov.fetchBytes = .ok (.mov 3 9, rest) :=
  ⟨by decide, [0, 0, 0], by decide⟩

theorem witness_StepRunsEncodedInstruction :
    atMov.status.state = .running ∧ (Instr.mov 3 9).wellFormed = true ∧ InstrAt atMov (.mov 3 9) :=
  ⟨by decide, by decide, by decide, by decide⟩

/-- A step that changes a register and one that changes a data byte. -/
theorem witness_OnlyNamedElementsChange :
    (∃ t, step atMov = .next t ∧ t.reg 9 ≠ atMov.reg 9) ∧
      ∃ t, step (sample [3, 0, 0, 0, 0, 0] [0, 0, 0, 0] 0 1) = .next t ∧
        t.data.get 0 ≠ (sample [3, 0, 0, 0, 0, 0] [0, 0, 0, 0] 0 1).data.get 0 :=
  ⟨⟨_, rfl, by decide⟩, _, rfl, by decide⟩

theorem witness_PcAdvancesByLength :
    (atMov.status.state = .running ∧ ∃ t, step atMov = .next t ∧ t.pc = 3) ∧
      (State.reset.status.state ≠ .running ∧ ∃ t, step State.reset = .next t ∧ t.pc = 0) :=
  ⟨⟨by decide, _, rfl, by decide⟩, by decide, _, rfl, by decide⟩

theorem witness_HowARunEnds :
    (sample [0] []).status.state = .running ∧ (sample [] []).status.state = .running ∧
      atMov.status.state = .running := by decide

theorem witness_EveryRunEnds :
    atMov.status.state = .running ∧ ∃ t, step atMov = .next t ∧ t.status.state = .running := ⟨by decide, _, rfl, by decide⟩

/-- Two programs that differ only past the window. -/
theorem witness_StepReadsOnlyTheWindow :
    (sample [0, 0, 0, 0, 0, 0, 1] []).status.state = .running ∧
      (Memory.ofBytes [0, 0, 0, 0, 0, 0, 2, 3]).window 0 6 = (sample [0, 0, 0, 0, 0, 0, 1] []).prog.window 0 6 ∧
      ∃ t, step (sample [0, 0, 0, 0, 0, 0, 1] []) = .next t ∧ t.status.state = .halted :=
  ⟨by decide, by decide, _, rfl, by decide⟩

theorem witness_RefusedCommandsChangeNothing :
    (atMov.status.state = .running ∧ HostCommand.read ≠ .reset) ∧
      (hostCommand { } (.writeReg 32 1) State.reset).2 = .refused := by decide

/-- With a counter of 2 bits three bytes are the most. -/
theorem witness_LoadProgramCommand :
    (State.reset.status.state = .ready ∧ ([1, 2, 3] : List Byte).length ≤ 2 ^ (Params.mk 2).pcBits - 1) ∧
      (stopped .halted none).status.state ≠ .ready ∧
      2 ^ (Params.mk 2).pcBits - 1 < ([1, 2, 3, 4] : List Byte).length := by decide

theorem witness_LoadDataCommand :
    (State.reset.status.state ≠ .running ∧ ([] : List Byte).length ≤ 2 ^ 32) ∧ atMov.status.state = .running ∧
      2 ^ 32 < (List.replicate (2 ^ 32 + 1) (0 : Byte)).length :=
  ⟨by decide, by decide, by rw [List.length_replicate]; decide⟩

theorem witness_WriteRegCommand :
    (State.reset.status.state ≠ .running ∧ 31 < 32) ∧ (atMov.status.state = .running ∨ 32 ≤ 32) := by decide

theorem witness_StartCommand :
    State.reset.status.state = .ready ∧ (stopped .faulted (some .illegalOpcode)).status.state = .faulted ∧
      (stopped .exhausted none).status = { state := .exhausted, cause := none } ∧
      (stopped .exhausted none).pc = (stopped .exhausted none).prog.len := by decide

/-- Each terminal state and READY for the first clause, a running core for the second, a 2-bit counter for the third. -/
theorem witness_ReadReturnsWhatWasLoaded :
    (State.reset.status.state ≠ .running ∧ (stopped .halted none).status.state ≠ .running ∧
      (stopped .exhausted none).status.state ≠ .running ∧
      (stopped .faulted (some .illegalOpcode)).status.state ≠ .running) ∧
      atMov.status.state = .running ∧
      ([1, 0, 2] : List Byte).length ≤ 2 ^ (Params.mk 2).pcBits - 1 ∧ ([0, 7] : List Byte).length ≤ 2 ^ 32 := by decide

/-- R254: after an illegal byte Read returns the core's pc, STATUS byte and buffers, not those of reset. -/
theorem test_read_after_a_fault :
    afterStep (sample [0x05] [7, 0])
      (fun t => hostCommand { } .read t ==
        (t, .view { regs := t.regs, pc := 1, prog := [0x05], data := [7, 0], status := 0b00001100 })) = true := by decide

/-- A program of the greatest length for a 2-bit counter, and the state of `sample` as the one it must be. -/
theorem witness_BootReachesTheStartOfARun :
    ([2, 3, 9] : List Byte).length ≤ 2 ^ (Params.mk 2).pcBits - 1 ∧ ([1, 0] : List Byte).length ≤ 2 ^ 32 ∧
      (sample [2, 3, 9] [1, 0]).prog.wf ∧ (sample [2, 3, 9] [1, 0]).data.wf ∧
      sample [2, 3, 9] [1, 0] = hostCommands (Params.mk 2) (bootCommands [2, 3, 9] [1, 0]) atMov := by decide

theorem witness_BootRunsTheInstructionAtZero :
    (Instr.mov 3 9).wellFormed = true ∧ (encode (.mov 3 9) ++ []).length ≤ 2 ^ (Params.mk 2).pcBits - 1 ∧
      ([] : List Byte).length ≤ 2 ^ 32 := by decide

theorem witness_ResultOnlyAtTheEnd :
    State.reset.status.state = .ready ∧ (stopped .exhausted none).status.state = .exhausted := by decide

/-- The window of a lone illegal byte. -/
theorem witness_NoWriteEnableInAFaultingStep :
    (controlSignals (fetchWindow (Vector.replicate 6 0xEE) (sample [5] [])) 0 { state := .running, cause := none }
      0).statusNext.state = .faulted := by decide

end Sys2Proof.Tests
end

section
/-! PROOFS. The invariant `Inv`: it holds at reset, every named state operation keeps it under its own condition, and so
every step and every host command does; by one induction it holds of every reachable state. -/

namespace Sys2Proof

open Machine

variable {p : Params} {s t : State} {r : RunState} {i : Fin numRegs} {v : Word} {n a : Nat} {bs : List Byte}

/-! ### One rule per state operation -/

theorem inv_reset (p : Params) : Inv p State.reset where
  pc_le := Nat.le_refl 0
  prog_len_le := Nat.zero_le _
  data_len_le := Nat.zero_le _
  prog_wf := empty_wf
  data_wf := empty_wf
  cause_iff := by simp [State.reset]
  ready_pc _ := rfl

/-- Outside FAULTED no cause is recorded. -/
theorem Inv.cause_eq_none (hi : Inv p s) (h : s.status.state ≠ .faulted) : s.status.cause = none :=
  Decidable.not_not.1 (mt hi.cause_iff.1 h)

theorem Inv.pc_lt_two_pow (hi : Inv p s) : s.pc < 2 ^ p.pcBits := by
  have hpc := hi.pc_le
  have hlen := hi.prog_len_le
  have hpos : 0 < 2 ^ p.pcBits := by positivity
  unfold Params.maxProgLen at hlen
  omega

theorem Inv.setReg (hi : Inv p s) : Inv p (s.setReg i v) := { hi with }

theorem Inv.store32 (hi : Inv p s) : Inv p (s.store32 a v) :=
  { hi with
    data_len_le := by simpa using hi.data_len_le
    data_wf := write32_wf _ _ _ hi.data_wf }

/-- A running core may move pc anywhere up to the end of the program. -/
theorem Inv.advance (hi : Inv p s) (h : s.status.state = .running) (hpc : s.pc + n ≤ s.prog.len) :
    Inv p (s.advance n) :=
  { hi with
    pc_le := hpc
    ready_pc := by simp [h] }

/-- A running core may end its run without a fault; it never returns to READY. -/
theorem Inv.setRunState (hi : Inv p s) (h : s.status.state = .running) (hready : r ≠ .ready) (hfault : r ≠ .faulted) :
    Inv p (s.setRunState r) :=
  { hi with
    cause_iff := by simp [hi.cause_eq_none (by simp [h]), hfault]
    ready_pc := by simp [hready] }

/-- A fault moves pc past the opcode byte, so that byte must be in the program buffer. -/
theorem Inv.takeFault (hi : Inv p s) (c : FaultCause) (hpc : s.pc < s.prog.len) : Inv p (takeFault c s) :=
  { hi with
    pc_le := hpc
    cause_iff := by simp
    ready_pc := by simp }

theorem Inv.start (hi : Inv p s) : Inv p { s with status := { state := .running, cause := none } } :=
  { hi with
    cause_iff := by simp
    ready_pc := by simp }

/-- A program is loaded in READY only, where pc is 0, so it may be shorter than the one before. -/
theorem Inv.loadProg (hi : Inv p s) (h : s.status.state = .ready) (hlen : bs.length ≤ p.maxProgLen) :
    Inv p { s with prog := .ofBytes bs } :=
  { hi with
    pc_le := by simp [hi.ready_pc h]
    prog_len_le := hlen
    prog_wf := ofBytes_wf bs }

theorem Inv.loadData (hi : Inv p s) (hlen : bs.length ≤ maxDataLen) : Inv p { s with data := .ofBytes bs } :=
  { hi with
    data_len_le := hlen
    data_wf := ofBytes_wf bs }

/-! ### Steps and host commands -/

/-- Every instruction takes at least its opcode byte (R63). -/
theorem Tag.len_pos (t : Tag) : 0 < t.len := by cases t <;> decide

theorem step_keeps_inv (hi : Inv p s) (hstep : step s = .next t) : Inv p t := by
  cases step_inv hstep with
  | idle => exact hi
  | exhausted h => exact hi.setRunState h (by simp) (by simp)
  | illegal _ hpc => exact hi.takeFault _ hpc
  | truncated _ hpc => exact hi.takeFault _ hpc
  | badRegister _ hlen =>
    have hpos := Tag.len_pos (decodeTag (opcodeAt s))
    exact hi.takeFault _ (by omega)
  | outOfBounds _ hlen => exact hi.takeFault _ (by omega)
  | hlt h hpc => exact (hi.advance h hpc).setRunState h (by simp) (by simp)
  | load h hlen => exact hi.setReg.advance h hlen
  | mov h hlen => exact hi.setReg.advance h hlen
  | stor h hlen => exact hi.store32.advance h hlen
  | ldim h hlen => exact hi.setReg.advance h hlen

/-- An accepted command is one of the operations above, and a refused one changes nothing. -/
theorem hostCommand_keeps_inv (c : HostCommand) (hi : Inv p s) : Inv p (hostCommand p c s).1 := by
  cases c with
  | reset => exact inv_reset p
  | loadProgram bs =>
    simp only [hostCommand, hostLoadProgram]
    split
    next h => exact hi.loadProg h.1 h.2
    next => exact hi
  | loadData bs =>
    simp only [hostCommand, hostLoadData]
    split
    next h => exact hi.loadData h.2
    next => exact hi
  | writeReg k v =>
    simp only [hostCommand, hostWriteReg]
    split
    · split
      · exact hi.setReg
      · exact hi
    · exact hi
  | start =>
    simp only [hostCommand, hostStart]
    split
    case h_1 | h_2 | h_3 => exact hi.start
    case h_4 | h_5 => exact hi
  | read =>
    simp only [hostCommand, hostRead]
    split
    · exact hi
    · exact hi

/-- Induction over the ways a state is reached: reset, a step, a host command. -/
theorem reachable_inv (hr : Reachable p s) : Inv p s := by
  induction hr with
  | reset => exact inv_reset p
  | step _ hstep ih => exact step_keeps_inv ih hstep
  | host c _ ih => exact hostCommand_keeps_inv c ih

end Sys2Proof
end

section
/-! PROOFS. The statements of the family 10_state.md: the reset values, and the invariant of every reachable state. -/

namespace Sys2Proof

open Machine

/-- Settles O1: the registers by `reset_reg`, every other field by the definition of `State.reset`. -/
theorem resetValues : Obligations.ResetValues := by
  unfold Obligations.ResetValues
  exact ⟨reset_reg, reset_pc, rfl, rfl, rfl, rfl, rfl⟩

/-- Settles O5, by the induction of `reachable_inv`; the bound on pc follows from the invariant. -/
theorem reachableStatesMeetInv : Obligations.ReachableStatesMeetInv := by
  unfold Obligations.ReachableStatesMeetInv
  intro p s hr
  have hi : Inv p s := reachable_inv hr
  exact ⟨hi, hi.pc_lt_two_pow⟩

end Sys2Proof
end

section
/-! PROOFS. The statements of the family 20_memory.md: byte order, the two data access primitives, and a LOAD after a
STOR. -/

namespace Sys2Proof

open Machine

variable {s : State} {m : Memory} {r : Byte} {addr : Word} {a k : Nat}

/-! ### Byte order -/

theorem bytesLe32_le32 (b0 b1 b2 b3 : Byte) : bytesLe32 (le32 b0 b1 b2 b3) = [b0, b1, b2, b3] := by
  simp [bytesLe32]

/-- A word is its four bytes put together again. -/
theorem le32_byteOf (v : Word) : le32 (byteOf v 0) (byteOf v 1) (byteOf v 2) (byteOf v 3) = v := by
  apply BitVec.eq_of_toNat_eq
  have hv := v.isLt
  simp only [le32_toNat, byteOf_toNat]
  omega

/-- The byte as a number cut to 8 bits: the form in which R49 names it. -/
theorem byteOf_eq_ofNat (v : Word) (k : Nat) : byteOf v k = BitVec.ofNat 8 (v.toNat / 2 ^ (8 * k)) := by
  apply BitVec.eq_of_toNat_eq
  rw [byteOf_toNat, BitVec.toNat_ofNat]

theorem signedValue_eq (v : Word) : signedValue v = v.toNat - 2 ^ 32 * (v.getLsbD 31).toNat := by
  unfold signedValue
  cases v.getLsbD 31 <;> simp

/-! ### The data access primitives -/

/-- A word read from a buffer has the buffer's bytes, in order of address (R49). -/
theorem byteOf_read32 (hk : k < 4) : byteOf (m.read32 a) k = m.get (a + k) := by
  unfold Memory.read32
  match k, hk with
  | 0, _ => exact byteOf_le32_0 ..
  | 1, _ => exact byteOf_le32_1 ..
  | 2, _ => exact byteOf_le32_2 ..
  | 3, _ => exact byteOf_le32_3 ..

theorem get_write32_add (h : m.inBounds a) (v : Word) (hk : k < 4) : (m.write32 a v).get (a + k) = byteOf v k := by
  rw [get_write32 _ _ _ _ h, if_pos ⟨by omega, by omega⟩, Nat.add_sub_cancel_left]

theorem get_write32_outside {y : Nat} (h : m.inBounds a) (v : Word) (hy : y < a ∨ a + 4 ≤ y) :
    (m.write32 a v).get y = m.get y := by
  rw [get_write32 _ _ _ _ h, if_neg (by omega)]

/-! ### LOAD and STOR that complete -/

/-- STOR with its three duties met (R151). -/
theorem exec_stor_completes (hpc : s.pc + 6 ≤ s.prog.len) (hr : validReg r) (hb : s.data.inBounds addr.toNat) :
    exec (.stor r addr) s = .next ((s.store32 addr.toNat (s.reg ⟨r.toNat, hr⟩)).advance 6) := by
  show execStor r addr s = _
  obtain ⟨ht, -⟩ | ⟨-, hr', -⟩ | ⟨-, -, hb', -⟩ | ⟨-, -, i, hi, he⟩ := execStor_cases r addr s
  · exact absurd hpc (Nat.not_le.2 ht)
  · exact absurd hr hr'
  · exact absurd hb hb'
  · rw [he, show i = ⟨r.toNat, hr⟩ from Fin.ext hi]

/-- LOAD with its three duties met (R150). -/
theorem exec_load_completes (hpc : s.pc + 6 ≤ s.prog.len) (hr : validReg r) (hb : s.data.inBounds addr.toNat) :
    exec (.load r addr) s =
      .next ((s.setReg ⟨r.toNat, hr⟩ (s.data.read32 addr.toNat)).advance 6) := by
  show execLoad r addr s = _
  obtain ⟨ht, -⟩ | ⟨-, hr', -⟩ | ⟨-, -, hb', -⟩ | ⟨-, -, i, hi, he⟩ := execLoad_cases r addr s
  · exact absurd hpc (Nat.not_le.2 ht)
  · exact absurd hr hr'
  · exact absurd hb hb'
  · rw [he, show i = ⟨r.toNat, hr⟩ from Fin.ext hi]

/-! ### The statements -/

/-- Settles O13, clause by clause from the byte order laws. -/
theorem littleEndianConversions : Obligations.LittleEndianConversions := by
  unfold Obligations.LittleEndianConversions
  exact ⟨fun b0 b1 b2 b3 => ⟨bytesLe32_le32 b0 b1 b2 b3, le32_toNat b0 b1 b2 b3⟩,
    fun v => ⟨le32_byteOf v, signedValue_eq v⟩, le32_toNat 244 1 0 0⟩

/-- Settles O14: the read by `le32_toNat`, the write by the exact reach of a word store, `get_write32`. -/
theorem memReadAndMemWrite : Obligations.MemReadAndMemWrite := by
  unfold Obligations.MemReadAndMemWrite
  intro m a v h
  refine ⟨le32_toNat .., write32_len .., fun k hk => ?_, fun y hy => get_write32_outside h v hy⟩
  rw [get_write32_add h v hk, byteOf_eq_ofNat]

/-- Settles O15: both instructions complete, and a byte read back from the stored-to buffer is the one `get_write32`
says stands there. -/
theorem overlappingStoreThenLoad : Obligations.OverlappingStoreThenLoad := by
  unfold Obligations.OverlappingStoreThenLoad
  intro s r r' A B hr hr' hpc hA hB
  refine ⟨_, _, exec_stor_completes (by omega) hr hA,
    exec_load_completes (by simp; omega) hr' (by simpa using hB), fun k hk => ?_⟩
  rw [advance_reg, setReg_reg_self, byteOf_read32 hk, advance_data, store32_data]
  exact get_write32 _ _ _ _ hA

end Sys2Proof
end

section
/-! PROOFS. The statements of the family 30_encoding.md: where the decoder finds each operand field, and how many bytes
it takes. -/

namespace Sys2Proof

variable (r src dst b2 b3 b4 b5 : Byte) (rest : List Byte)

/-! ### The decoder on each defined opcode that has operands -/

@[simp] theorem decode_load_bytes :
    decode (0x01 :: r :: b2 :: b3 :: b4 :: b5 :: rest) = .ok (.load r (le32 b2 b3 b4 b5), rest) := rfl

@[simp] theorem decode_mov_bytes : decode (0x02 :: src :: dst :: rest) = .ok (.mov src dst, rest) := rfl

@[simp] theorem decode_stor_bytes :
    decode (0x03 :: r :: b2 :: b3 :: b4 :: b5 :: rest) = .ok (.stor r (le32 b2 b3 b4 b5), rest) := rfl

@[simp] theorem decode_ldim_bytes :
    decode (0x04 :: r :: b2 :: b3 :: b4 :: b5 :: rest) = .ok (.ldim r (le32 b2 b3 b4 b5), rest) := rfl

/-! ### The statements -/

/-- Settles O6: the field is the little-endian word of its four bytes, whose value is `le32_toNat`. -/
theorem decodeReadsOperandFields : Obligations.DecodeReadsOperandFields := by
  unfold Obligations.DecodeReadsOperandFields
  intro b1 b2 b3 b4 b5 rest
  exact ⟨le32 b2 b3 b4 b5, le32_toNat b2 b3 b4 b5, decode_load_bytes b1 b2 b3 b4 b5 rest,
    decode_mov_bytes b1 b2 rest, decode_stor_bytes b1 b2 b3 b4 b5 rest, decode_ldim_bytes b1 b2 b3 b4 b5 rest⟩

/-- Settles O7: the tag and the number of bytes taken by `decode_ok`, the six lengths by the definition of `Tag.len`. -/
theorem instructionLengths : Obligations.InstructionLengths := by
  unfold Obligations.InstructionLengths
  refine ⟨fun bs i rest h => ?_, rfl, rfl, rfl, rfl, rfl, rfl⟩
  obtain ⟨op, more, hbs, htag, hlen⟩ := decode_ok h
  exact ⟨op, more, hbs, htag.symm, hlen.trans (Nat.add_comm _ _)⟩

end Sys2Proof
end

section
/-! PROOFS. The statements of the family 40_decoder.md: the decoder LUT as a table over all opcode bytes, and the gates
of R82 that compute its 3-bit output. -/

namespace Sys2Proof

variable {b : Byte}

/-! ### The gates of R82 -/

/-- The upper gate of R82, `b[7:3] = 0`, sees a byte below 8. -/
theorem extractLsb'_upper_eq_zero_iff : b.extractLsb' 3 5 = 0 ↔ b.toNat < 8 := by
  have hb := b.isLt
  simp only [BitVec.toNat_eq, BitVec.extractLsb'_toNat, Nat.shiftRight_eq_div_pow, BitVec.ofNat_eq_ofNat,
    BitVec.toNat_ofNat]
  omega

/-- The lower gate of R82 on a byte below 8: its three low bits read 5, 6 or 7. -/
theorem lowBits_gate_iff (h : b.toNat < 8) :
    (b.getLsbD 2 ∧ (b.getLsbD 1 ∨ b.getLsbD 0)) ↔ 5 ≤ b.toNat := by
  simp only [← BitVec.testBit_toNat, Nat.testBit_eq_decide_div_mod_eq, decide_eq_true_eq]
  omega

/-- The two gates of R82 together pick out the five defined opcodes. -/
theorem definedOpcode_gates_iff :
    (b.extractLsb' 3 5 = 0 ∧ ¬ (b.getLsbD 2 ∧ (b.getLsbD 1 ∨ b.getLsbD 0))) ↔ b.toNat < 5 := by
  rw [extractLsb'_upper_eq_zero_iff]
  constructor
  · rintro ⟨h8, hlow⟩
    rwa [lowBits_gate_iff h8, not_le] at hlow
  · intro h5
    have h8 : b.toNat < 8 := by omega
    exact ⟨h8, by rwa [lowBits_gate_iff h8, not_le]⟩

/-! ### The 3-bit output -/

/-- A defined opcode's code is its own three low bits (D16). -/
theorem decodeTag_code_of_lt (h : b.toNat < 5) : (decodeTag b).code = b.extractLsb' 0 3 := by
  obtain ⟨rfl, ht⟩ | ⟨rfl, ht⟩ | ⟨rfl, ht⟩ | ⟨rfl, ht⟩ | ⟨rfl, ht⟩ | ⟨h5, -⟩ := decodeTag_cases b
  case inr.inr.inr.inr.inr => omega
  all_goals rw [ht]; rfl

theorem decodeTag_code_eq_gates (b : Byte) :
    (decodeTag b).code =
      if b.extractLsb' 3 5 = 0 ∧ ¬ (b.getLsbD 2 ∧ (b.getLsbD 1 ∨ b.getLsbD 0)) then b.extractLsb' 0 3 else 0b101 := by
  by_cases h : b.toNat < 5
  · rw [if_pos (definedOpcode_gates_iff.2 h), decodeTag_code_of_lt h]
  · rw [if_neg (mt definedOpcode_gates_iff.1 h), decodeTag_illegal (not_lt.1 h)]
    rfl

/-- No tag has code 6 or 7 (R81). -/
theorem Tag.code_toNat_le (t : Tag) : t.code.toNat ≤ 5 := by
  cases t <;> decide

/-! ### The table -/

/-- The table of R82, read row by row from the top. -/
theorem decodeTag_eq_table (b : Byte) :
    decodeTag b =
      if b = 0x00 then .halt else if b = 0x01 then .loadFromData else if b = 0x02 then .moveRegister
      else if b = 0x03 then .storeToData else if b = 0x04 then .loadImmediate else .illegal := by
  obtain ⟨rfl, ht⟩ | ⟨rfl, ht⟩ | ⟨rfl, ht⟩ | ⟨rfl, ht⟩ | ⟨rfl, ht⟩ | ⟨h5, ht⟩ := decodeTag_cases b
  case inr.inr.inr.inr.inr =>
    have hne (c : Byte) (hc : c.toNat < 5) : b ≠ c := by rintro rfl; omega
    rw [ht, if_neg (hne _ (by decide)), if_neg (hne _ (by decide)), if_neg (hne _ (by decide)),
      if_neg (hne _ (by decide)), if_neg (hne _ (by decide))]
  all_goals rw [ht]; rfl

/-! ### The statement -/

/-- Settles O8: the table, the gates' code and its bound, each for every byte. -/
theorem decoderLutAndItsLogic : Obligations.DecoderLutAndItsLogic := by
  unfold Obligations.DecoderLutAndItsLogic
  exact fun b => ⟨decodeTag_eq_table b, decodeTag_code_eq_gates b, (decodeTag b).code_toNat_le⟩

end Sys2Proof
end

section
/-! PROOFS. The statements of the family 41_datapath.md: exhaustion, the total meaning of every instruction, and why a
FAULTED core stays FAULTED until Reset. -/

namespace Sys2Proof

open Machine

variable {s : State}

/-! ### Exhaustion -/

theorem SameBytes.refl (m : Memory) : SameBytes m m := ⟨rfl, fun _ => rfl⟩

/-- With no byte at pc the step is the exhaustion check alone (R101). -/
theorem step_of_prog_len_le (h : s.status.state = .running) (hpc : s.prog.len ≤ s.pc) : step s = .next (exhaust s) := by
  rw [step_running h, cycle, decode_noBytes.2 (fetchBytes_nil.2 hpc)]

/-- A running core is exhausted only by the end of its program: every instruction that completes leaves it RUNNING or
HALTED, and every fault leaves it FAULTED. -/
theorem step_exhausts_iff (h : s.status.state = .running) :
    (∃ t, step s = .next t ∧ t.status.state = .exhausted) ↔ s.prog.len ≤ s.pc := by
  constructor
  · rintro ⟨t, hstep, hexh⟩
    cases step_inv hstep with
    | exhausted _ hpc => exact hpc
    | idle hidle => exact absurd h hidle
    | illegal | truncated | badRegister | outOfBounds | hlt => simp at hexh
    | load | mov | stor | ldim => simp [h] at hexh
  · exact fun hpc => ⟨_, step_of_prog_len_le h hpc, exhaust_state s⟩

/-! ### The meanings are total -/

/-- By the case list of each meaning: every case, a fault's too, is a next state. -/
theorem exec_next (i : Instr) (s : State) : ∃ t, exec i s = .next t := by
  cases i with
  | hlt => exact ⟨_, rfl⟩
  | illegal op => exact ⟨_, rfl⟩
  | ldim r imm =>
    obtain ⟨-, he⟩ | ⟨-, -, he⟩ | ⟨-, _, -, he⟩ := execLdim_cases r imm s
    all_goals exact ⟨_, he⟩
  | mov src dst =>
    obtain ⟨-, he⟩ | ⟨-, -, he⟩ | ⟨-, _, _, -, -, he⟩ := execMov_cases src dst s
    all_goals exact ⟨_, he⟩
  | load r addr =>
    obtain ⟨-, he⟩ | ⟨-, -, he⟩ | ⟨-, -, -, he⟩ | ⟨-, -, _, -, he⟩ := execLoad_cases r addr s
    all_goals exact ⟨_, he⟩
  | stor r addr =>
    obtain ⟨-, he⟩ | ⟨-, -, he⟩ | ⟨-, -, -, he⟩ | ⟨-, -, _, -, he⟩ := execStor_cases r addr s
    all_goals exact ⟨_, he⟩

/-! ### STATUS under host commands -/

/-- No command but Reset and Start writes STATUS (R254). -/
theorem hostCommand_status (p : Params) (s : State) (c : HostCommand) (hreset : c ≠ .reset) (hstart : c ≠ .start) :
    (hostCommand p c s).1.status = s.status := by
  cases c with
  | reset => exact absurd rfl hreset
  | start => exact absurd rfl hstart
  | loadProgram bs => simp only [hostCommand, hostLoadProgram]; split <;> rfl
  | loadData bs => simp only [hostCommand, hostLoadData]; split <;> rfl
  | writeReg i v => simp only [hostCommand, hostWriteReg]; split <;> [split; skip] <;> rfl
  | read => simp only [hostCommand, hostRead]; split <;> rfl

/-- Start does not resume past a fault (R255, D12). -/
theorem hostStart_faulted (p : Params) (h : s.status.state = .faulted) :
    hostCommand p .start s = (s, .refused) := by
  simp only [hostCommand, hostStart, h]

/-! ### The statements -/

/-- Settles O33: the step at the end of the program is `exhaust`, no other step ends in EXHAUSTED, and the invariant's
pc ≤ `PROG_LEN` makes the bound an equality. -/
theorem exhaustionRule : Obligations.ExhaustionRule := by
  unfold Obligations.ExhaustionRule
  intro s h
  refine ⟨fun hpc => ⟨exhaust s, step_of_prog_len_le h hpc, exhaust_state s, exhaust_cause s, exhaust_pc s,
    exhaust_reg s, .refl s.prog, .refl s.data⟩, fun p hi => ?_⟩
  rw [step_exhausts_iff h]
  exact hi.pc_le.ge_iff_eq

/-- Settles O22, by the case lists of the six meanings. -/
theorem everyInstructionHasANextState : Obligations.EveryInstructionHasANextState := by
  unfold Obligations.EveryInstructionHasANextState
  exact exec_next

/-- Settles O30: a FAULTED core takes no step, Start is refused, and Start and Reset are the only commands that write
STATUS. -/
theorem faultIsSticky : Obligations.FaultIsSticky := by
  unfold Obligations.FaultIsSticky
  intro p s h
  have hstart : hostCommand p .start s = (s, .refused) := hostStart_faulted p h
  refine ⟨step_idle (by simp [h]), hstart, fun c hc => ⟨?_, hostCommand_pc p s c hc⟩⟩
  by_cases hc' : c = .start
  · rw [hc', hstart]
  · exact hostCommand_status p s c hc hc'

end Sys2Proof
end

section
/-! PROOFS. The statements of the family 42_control.md: HLT, the Illegal tag, how a run state is left, and why no byte
past the fetch window matters. -/

namespace Sys2Proof

open Machine

variable {s t : State} {b : Byte} {q : Memory} {n : Nat}

/-! ### How a run state is left -/

/-- A running core at an HLT byte halts one byte further (R130). -/
theorem step_of_opcode_hlt (h : s.status.state = .running) (hpc : s.pc < s.prog.len) (hop : opcodeAt s = 0) :
    step s = .next ((s.advance 1).setRunState .halted) := by
  have htag : decodeTag (opcodeAt s) = .halt := by rw [hop]; rfl
  have hlen : s.pc + (decodeTag (opcodeAt s)).len ≤ s.prog.len := by rw [htag]; exact hpc
  obtain ⟨rest, hd⟩ := decode_fetchBytes hpc hlen
  rw [step_running h, cycle, hd, htag]
  rfl

/-- HLT is the only way to HALTED. -/
theorem step_halts_iff (h : s.status.state = .running) (hstep : step s = .next t) :
    t.status.state = .halted ↔ s.pc < s.prog.len ∧ opcodeAt s = 0 := by
  constructor
  · intro hhalt
    cases step_inv hstep with
    | hlt _ hpc hop => exact ⟨hpc, hop⟩
    | idle hidle => exact absurd h hidle
    | exhausted | illegal | truncated | badRegister | outOfBounds => simp at hhalt
    | load | mov | stor | ldim => simp [h] at hhalt
  · rintro ⟨hpc, hop⟩
    cases hstep.symm.trans (step_of_opcode_hlt h hpc hop)
    exact setRunState_state _ _

/-- A running core's step either ends the run or leaves STATUS alone (R32). -/
theorem step_ends_or_keeps_status (h : s.status.state = .running) (hstep : step s = .next t) :
    t.status.state.terminal = true ∨ t.status = s.status := by
  cases step_inv hstep with
  | idle hidle => exact absurd h hidle
  | exhausted | illegal | truncated | badRegister | outOfBounds | hlt => exact .inl rfl
  | load | mov | stor | ldim => exact .inr rfl

/-! ### The program buffer read through the window only -/

/-- The state with another program buffer. -/
def withProg (q : Memory) (s : State) : State := { s with prog := q }

@[simp] theorem withProg_data : (withProg q s).data = s.data := rfl

/-- An outcome with its next state changed by `f`. -/
def mapNext (f : State → State) : Host.Outcome State Fault Refusal → Host.Outcome State Fault Refusal
  | .next s => .next (f s)
  | .fault r => .fault r
  | .refused r => .refused r

theorem mapNext_ite (f : State → State) (c : Prop) [Decidable c] (x y : Host.Outcome State Fault Refusal) :
    mapNext f (if c then x else y) = if c then mapNext f x else mapNext f y := apply_ite _ _ _ _

theorem truncatedAt_withProg_iff (hw : q.window s.pc 6 = s.prog.window s.pc 6) (hpos : 0 < n) (hn : n ≤ 6) :
    (withProg q s).truncatedAt n ↔ s.truncatedAt n := by
  have hlen : min 6 (q.len - s.pc) = min 6 (s.prog.len - s.pc) := by simpa using congrArg List.length hw
  change q.len < s.pc + n ↔ s.prog.len < s.pc + n
  omega

/-- A meaning reads the program buffer in its truncation check alone, so two buffers with the same window at pc give
the same effect. -/
theorem exec_withProg (hw : q.window s.pc 6 = s.prog.window s.pc 6) (i : Instr) :
    exec i (withProg q s) = mapNext (withProg q) (exec i s) := by
  have h3 : (withProg q s).truncatedAt 3 ↔ s.truncatedAt 3 := truncatedAt_withProg_iff hw (by decide) (by decide)
  have h6 : (withProg q s).truncatedAt 6 ↔ s.truncatedAt 6 := truncatedAt_withProg_iff hw (by decide) (by decide)
  cases i with
  | hlt => rfl
  | illegal op => rfl
  | ldim r imm =>
    simp only [exec, execLdim, h6]
    cases regIndex r <;> (rw [mapNext_ite]; rfl)
  | mov src dst =>
    simp only [exec, execMov, h3]
    cases regIndex src <;> cases regIndex dst <;> (rw [mapNext_ite]; rfl)
  | load r addr =>
    simp only [exec, execLoad, h6, withProg_data]
    cases regIndex r with
    | none => rw [mapNext_ite]; rfl
    | some j => rw [mapNext_ite, mapNext_ite]; rfl
  | stor r addr =>
    simp only [exec, execStor, h6, withProg_data]
    cases regIndex r with
    | none => rw [mapNext_ite]; rfl
    | some j => rw [mapNext_ite, mapNext_ite]; rfl

/-- The fetched bytes are the window, so the decoder's answer is the same too (R102, R112). -/
theorem cycle_withProg (hw : q.window s.pc 6 = s.prog.window s.pc 6) :
    cycle (withProg q s) = mapNext (withProg q) (cycle s) := by
  have hfetch : (withProg q s).fetchBytes = s.fetchBytes := hw
  rw [cycle, cycle, hfetch]
  split
  · rfl
  · rfl
  · exact exec_withProg hw _

/-! ### Control instructions and Start -/

theorem decode_illegal (h : 5 ≤ b.toNat) (rest : List Byte) : decode (b :: rest) = .ok (.illegal b, rest) := by
  simp only [decode, decodeTag_illegal h]

/-- The model's fault action is the spec's (R108). -/
theorem takeFault_faultTaken (c : FaultCause) (s : State) : FaultTaken c s (takeFault c s) :=
  ⟨takeFault_pc s c, takeFault_state s c, takeFault_cause s c, fun i => takeFault_reg s i c, .refl s.prog,
    .refl s.data⟩

/-- Start resumes a HALTED core where it stands (R255, D12). -/
theorem hostStart_halted (p : Params) (h : s.status.state = .halted) :
    hostCommand p .start s = ({ s with status := { state := .running, cause := none } }, .done) := by
  simp only [hostCommand, hostStart, h]

/-! ### The statements -/

/-- Settles O38: HALTED by `step_halts_iff`, EXHAUSTED by `step_exhausts_iff`; a step that does not end the run keeps
STATUS, so READY is out of reach. -/
theorem howARunEnds : Obligations.HowARunEnds := by
  unfold Obligations.HowARunEnds
  intro s h
  obtain ⟨t, hstep, -⟩ := step_cases s
  have hexh : t.status.state = .exhausted ↔ s.prog.len ≤ s.pc := by simpa [hstep] using step_exhausts_iff h
  refine ⟨t, hstep, step_halts_iff h hstep, hexh, ?_⟩
  obtain hend | hkeep := step_ends_or_keeps_status h hstep
  · have hne (r : RunState) (hr : r.terminal = false) : t.status.state ≠ r := by rintro rfl; simp [hr] at hend
    exact ⟨hne .ready rfl, fun hrun => absurd hrun (hne .running rfl)⟩
  · simp [hkeep, h]

/-- Settles O40: a running core's step is its cycle, which reads the program buffer through the window alone. -/
theorem stepReadsOnlyTheWindow : Obligations.StepReadsOnlyTheWindow := by
  unfold Obligations.StepReadsOnlyTheWindow
  intro s q t h hw hstep
  have hcycle : cycle s = .next t := (step_running h).symm.trans hstep
  calc step (withProg q s)
    _ = cycle (withProg q s) := step_running h
    _ = mapNext (withProg q) (cycle s) := cycle_withProg hw
    _ = .next (withProg q t) := by rw [hcycle]; rfl

/-- Settles O20: the fields of the halted state, and Start from HALTED. -/
theorem hltRule : Obligations.HltRule := by
  unfold Obligations.HltRule
  intro p s
  refine ⟨rfl, (s.advance 1).setRunState .halted, rfl, rfl, setRunState_state _ _, rfl, fun _ => rfl, .refl s.prog,
    .refl s.data, ?_⟩
  rw [hostStart_halted p (setRunState_state _ _)]
  exact ⟨rfl, rfl, rfl⟩

/-- Settles O21: the tag's meaning is the IllegalOpcode fault, and Start does not resume past a fault. -/
theorem illegalRule : Obligations.IllegalRule := by
  unfold Obligations.IllegalRule
  intro p s b rest hb
  exact ⟨decode_illegal hb rest, takeFault .illegalOpcode s, rfl, takeFault_faultTaken _ s,
    hostStart_faulted p (takeFault_state s _)⟩

end Sys2Proof
end

section
/-! PROOFS. The statements of the family 43_register.md: LDIM and MOV. -/

namespace Sys2Proof

open Machine

variable {s : State} {r : Byte} {i j : Fin numRegs} {v : Word} {n : Nat}

/-! ### The common parts of the two rules -/

/-- The decoder finds an immediate where its bytes are written (R61, R62). -/
theorem decode_ldim_bytesLe32 (r : Byte) (imm : Word) :
    decode ([0x04, r] ++ bytesLe32 imm) = .ok (.ldim r imm, []) := by
  change decode [0x04, r, byteOf imm 0, byteOf imm 1, byteOf imm 2, byteOf imm 3] = _
  rw [decode_ldim_bytes, le32_byteOf]

/-- Every register after a write to the one that an index byte names. -/
theorem setReg_advance_reg (hi : i.val = r.toNat) :
    ((s.setReg i v).advance n).reg j = if j.val = r.toNat then v else s.reg j := by
  simp only [advance_reg, setReg_reg, Fin.ext_iff, hi]

/-! ### The statements -/

/-- Settles O16: each of the three cases of `execLdim_cases` meets its own clause and contradicts the premises of the
other two. -/
theorem ldimRule : Obligations.LdimRule := by
  unfold Obligations.LdimRule
  intro s r imm
  refine ⟨decode_ldim_bytesLe32 r imm, ?_⟩
  obtain ⟨ht, he⟩ | ⟨hpc, hr, he⟩ | ⟨hpc, i, hi, he⟩ := execLdim_cases r imm s
  · have hshort : ¬ s.pc + 6 ≤ s.prog.len := not_le.2 ht
    exact ⟨fun _ => ⟨_, he, takeFault_faultTaken ..⟩, fun h => absurd h hshort, fun h => absurd h hshort⟩
  · exact ⟨fun h => absurd hpc (not_le.2 h), fun _ _ => ⟨_, he, takeFault_faultTaken ..⟩,
      fun _ hv => absurd hv hr⟩
  · have hv : validReg r := hi.symm.trans_lt i.isLt
    exact ⟨fun h => absurd hpc (not_le.2 h), fun _ hr => absurd hv (not_lt.2 hr),
      fun _ _ => ⟨_, he, fun _ => setReg_advance_reg hi, rfl, rfl, .refl _, .refl _⟩⟩

/-- Settles O17: each of the three cases of `execMov_cases` meets its own clause and contradicts the premises of the
other two. The source keeps its value even as the destination, which is then given that same value. -/
theorem movRule : Obligations.MovRule := by
  unfold Obligations.MovRule
  intro s src dst
  refine ⟨decode_mov_bytes src dst [], ?_⟩
  obtain ⟨ht, he⟩ | ⟨hpc, hbad, he⟩ | ⟨hpc, i, j, hi, hj, he⟩ := execMov_cases src dst s
  · have hshort : ¬ s.pc + 3 ≤ s.prog.len := not_le.2 ht
    exact ⟨fun _ => ⟨_, he, takeFault_faultTaken ..⟩, fun h => absurd h hshort, fun h => absurd h hshort⟩
  · exact ⟨fun h => absurd hpc (not_le.2 h), fun _ _ => ⟨_, he, takeFault_faultTaken ..⟩,
      fun _ hs hd => absurd hbad (not_or.2 ⟨not_not.2 hs, not_not.2 hd⟩)⟩
  · have hvs : validReg src := hi.symm.trans_lt i.isLt
    have hvd : validReg dst := hj.symm.trans_lt j.isLt
    obtain rfl : i = ⟨src.toNat, hvs⟩ := Fin.ext hi
    refine ⟨fun h => absurd hpc (not_le.2 h),
      fun _ hbad => absurd hbad (not_or.2 ⟨not_le.2 hvs, not_le.2 hvd⟩),
      fun _ _ _ => ⟨_, he, fun _ => setReg_advance_reg hj, ?_, rfl, rfl, .refl _, .refl _⟩⟩
    rw [setReg_advance_reg hj, ite_self]

end Sys2Proof
end

section
/-! PROOFS. The statements of the family 44_data.md: LOAD and STOR. -/

namespace Sys2Proof

open Machine

variable {s : State} {r : Byte} {addr : Word} {i : Instr}

/-! ### The common parts of the two rules -/

/-- The decoder finds LOAD's address where its bytes are written (R61, R62). -/
theorem decode_load_bytesLe32 (r : Byte) (addr : Word) :
    decode ([0x01, r] ++ bytesLe32 addr) = .ok (.load r addr, []) := by
  change decode [0x01, r, byteOf addr 0, byteOf addr 1, byteOf addr 2, byteOf addr 3] = _
  rw [decode_load_bytes, le32_byteOf]

/-- The decoder finds STOR's address where its bytes are written (R61, R62). -/
theorem decode_stor_bytesLe32 (r : Byte) (addr : Word) :
    decode ([0x03, r] ++ bytesLe32 addr) = .ok (.stor r addr, []) := by
  change decode [0x03, r, byteOf addr 0, byteOf addr 1, byteOf addr 2, byteOf addr 3] = _
  rw [decode_stor_bytes, le32_byteOf]

/-- LOAD and STOR make the same three checks in the same order, with the same faults (R205): one case list for both. -/
theorem exec_access_cases (h : i = .load r addr ∨ i = .stor r addr) (s : State) :
    (s.truncatedAt 6 ∧ exec i s = .next (takeFault .truncatedInstruction s)) ∨
    (s.pc + 6 ≤ s.prog.len ∧ ¬ validReg r ∧ exec i s = .next (takeFault .registerIndexOutOfRange s)) ∨
    (s.pc + 6 ≤ s.prog.len ∧ validReg r ∧ ¬ s.data.inBounds addr.toNat ∧
      exec i s = .next (takeFault .dataAddressOutOfBounds s)) ∨
    (s.pc + 6 ≤ s.prog.len ∧ validReg r ∧ s.data.inBounds addr.toNat) := by
  obtain rfl | rfl := h
  · exact (execLoad_cases r addr s).imp_right <| .imp_right <| .imp_right fun ⟨hpc, hb, j, hj, _⟩ =>
      ⟨hpc, hj.symm.trans_lt j.isLt, hb⟩
  · exact (execStor_cases r addr s).imp_right <| .imp_right <| .imp_right fun ⟨hpc, hb, j, hj, _⟩ =>
      ⟨hpc, hj.symm.trans_lt j.isLt, hb⟩

/-- Each check of a data access that fails first takes its own fault: a case of `exec_access_cases` meets its own clause
and contradicts the premises of the others. -/
theorem exec_access_faults (h : i = .load r addr ∨ i = .stor r addr) (s : State) :
    (s.prog.len < s.pc + 6 → ∃ t, exec i s = .next t ∧ FaultTaken .truncatedInstruction s t) ∧
    (s.pc + 6 ≤ s.prog.len → 32 ≤ r.toNat →
      ∃ t, exec i s = .next t ∧ FaultTaken .registerIndexOutOfRange s t) ∧
    (s.pc + 6 ≤ s.prog.len → r.toNat < 32 → s.data.len < addr.toNat + 4 →
      ∃ t, exec i s = .next t ∧ FaultTaken .dataAddressOutOfBounds s t) := by
  obtain ⟨ht, he⟩ | ⟨hpc, hr, he⟩ | ⟨hpc, hv, -, he⟩ | ⟨hpc, hv, hb⟩ := exec_access_cases h s
  · have hshort : ¬ s.pc + 6 ≤ s.prog.len := not_le.2 ht
    exact ⟨fun _ => ⟨_, he, takeFault_faultTaken ..⟩, fun h => absurd h hshort, fun h => absurd h hshort⟩
  · exact ⟨fun h => absurd hpc (not_le.2 h), fun _ _ => ⟨_, he, takeFault_faultTaken ..⟩,
      fun _ hv => absurd hv hr⟩
  · exact ⟨fun h => absurd hpc (not_le.2 h), fun _ hr => absurd hv (not_lt.2 hr),
      fun _ _ _ => ⟨_, he, takeFault_faultTaken ..⟩⟩
  · exact ⟨fun h => absurd hpc (not_le.2 h), fun _ hr => absurd hv (not_lt.2 hr),
      fun _ _ hout => absurd hb (not_le.2 hout)⟩

/-! ### The statements -/

/-- Settles O18: the faults by `exec_access_faults`; a LOAD that completes writes the word `Memory.read32` reads, and
no data byte. -/
theorem loadRule : Obligations.LoadRule := by
  unfold Obligations.LoadRule
  intro s r addr
  obtain ⟨htrunc, hreg, haddr⟩ := exec_access_faults (.inl rfl : Instr.load r addr = _ ∨ _) s
  refine ⟨decode_load_bytesLe32 r addr, htrunc, hreg, haddr, fun hpc hv hb => ?_⟩
  exact ⟨_, exec_load_completes hpc hv hb, fun _ => setReg_advance_reg rfl, rfl, rfl, .refl s.prog, .refl s.data⟩

/-- Settles O19: the faults by `exec_access_faults`; a STOR that completes writes its four bytes and no other, by the
reach of a word store. -/
theorem storRule : Obligations.StorRule := by
  unfold Obligations.StorRule
  intro s r addr
  obtain ⟨htrunc, hreg, haddr⟩ := exec_access_faults (.inr rfl : _ ∨ Instr.stor r addr = _) s
  refine ⟨decode_stor_bytesLe32 r addr, htrunc, hreg, haddr, fun hpc hv hb => ?_⟩
  exact ⟨_, exec_stor_completes hpc hv hb, fun _ => rfl, rfl, rfl, .refl s.prog, write32_len ..,
    fun _ hk => get_write32_add hb _ hk, fun _ ha => get_write32_outside hb _ ha⟩

end Sys2Proof
end

section
/-! PROOFS. The statements of the family 60_exceptions.md: the condition of each of the four faults, at the step. -/

namespace Sys2Proof

open Machine

variable {s : State}

/-! ### The instruction a step runs -/

/-- The instruction at pc as the program bytes spell it, for one that is wholly in the program buffer (R61, R62). -/
def instrAtPc (s : State) : Instr :=
  match decodeTag (opcodeAt s) with
  | .halt => .hlt
  | .loadFromData => .load (s.prog.get (s.pc + 1)) (fieldAt s)
  | .moveRegister => .mov (s.prog.get (s.pc + 1)) (s.prog.get (s.pc + 2))
  | .storeToData => .stor (s.prog.get (s.pc + 1)) (fieldAt s)
  | .loadImmediate => .ldim (s.prog.get (s.pc + 1)) (fieldAt s)
  | .illegal => .illegal (opcodeAt s)

/-- A running core at a complete instruction runs it (R102, R105). -/
theorem step_eq_exec_instrAtPc (h : s.status.state = .running)
    (hlen : s.pc + (decodeTag (opcodeAt s)).len ≤ s.prog.len) : step s = exec (instrAtPc s) s := by
  have hpc : s.pc < s.prog.len := (Nat.lt_add_of_pos_right (Tag.len_pos _)).trans_le hlen
  obtain ⟨rest, hd⟩ := decode_fetchBytes hpc hlen
  change decode s.fetchBytes = .ok (instrAtPc s, rest) at hd
  rw [step_running h, cycle, hd]

/-! ### The two faults that no operand decides -/

/-- The Illegal tag's one byte is always complete, so the step runs it (R131). -/
theorem step_of_opcode_illegal (h : s.status.state = .running) (hpc : s.pc < s.prog.len)
    (hop : 5 ≤ (opcodeAt s).toNat) : step s = .next (takeFault .illegalOpcode s) := by
  have htag : decodeTag (opcodeAt s) = .illegal := decodeTag_illegal hop
  have hlen : s.pc + (decodeTag (opcodeAt s)).len ≤ s.prog.len := by rw [htag]; exact hpc
  rw [step_eq_exec_instrAtPc h hlen, instrAtPc, htag]
  rfl

/-- The decoder stops short, so no operand is used (R104). -/
theorem step_of_truncated (h : s.status.state = .running) (hpc : s.pc < s.prog.len)
    (hlen : s.prog.len < s.pc + (decodeTag (opcodeAt s)).len) : step s = .next (takeFault .truncatedInstruction s) := by
  rw [step_running h, cycle, decode_fetchBytes_truncated hpc hlen]

/-! ### The statements -/

/-- Settles O23: the state after the step is the fault action's, with the program buffer as it was and pc one past the
illegal byte. -/
theorem illegalOpcodeFault : Obligations.IllegalOpcodeFault := by
  unfold Obligations.IllegalOpcodeFault
  intro s h hpc hop
  exact ⟨_, step_of_opcode_illegal h hpc hop, takeFault_faultTaken _ s, rfl⟩

/-- Settles O24: the decoder's answer for want of bytes. -/
theorem truncatedInstructionFault : Obligations.TruncatedInstructionFault := by
  unfold Obligations.TruncatedInstructionFault
  intro s h hpc _ hlen
  exact ⟨_, step_of_truncated h hpc hlen, takeFault_faultTaken _ s⟩

/-- Settles O25: the step runs the instruction at pc, and the rule of each of the four that have a register field gives
the fault. -/
theorem registerIndexFault : Obligations.RegisterIndexFault := by
  unfold Obligations.RegisterIndexFault
  intro s h hlen hbad
  rw [step_eq_exec_instrAtPc h hlen]
  cases ht : decodeTag (opcodeAt s) <;> simp only [instrAtPc, NamesBadRegister, ht, Tag.len] at hlen hbad ⊢
  case loadFromData =>
    obtain ⟨-, -, hfault, -⟩ := loadRule s (s.prog.get (s.pc + 1)) (fieldAt s)
    exact hfault hlen (not_lt.1 hbad)
  case moveRegister =>
    obtain ⟨-, -, hfault, -⟩ := movRule s (s.prog.get (s.pc + 1)) (s.prog.get (s.pc + 2))
    exact hfault hlen (hbad.imp not_lt.1 not_lt.1)
  case storeToData =>
    obtain ⟨-, -, hfault, -⟩ := storRule s (s.prog.get (s.pc + 1)) (fieldAt s)
    exact hfault hlen (not_lt.1 hbad)
  case loadImmediate =>
    obtain ⟨-, -, hfault, -⟩ := ldimRule s (s.prog.get (s.pc + 1)) (fieldAt s)
    exact hfault hlen (not_lt.1 hbad)

/-- Settles O26: the step runs the LOAD or STOR at pc, whose register is in range, and its rule gives the fault. -/
theorem dataAddressFault : Obligations.DataAddressFault := by
  unfold Obligations.DataAddressFault
  intro s h hlen hok ⟨htag, hout⟩
  rw [step_eq_exec_instrAtPc h hlen]
  obtain ht | ht := htag <;> simp only [instrAtPc, NamesBadRegister, ht, Tag.len, not_not] at hlen hok ⊢
  · obtain ⟨-, -, -, hfault, -⟩ := loadRule s (s.prog.get (s.pc + 1)) (fieldAt s)
    exact hfault hlen hok hout
  · obtain ⟨-, -, -, hfault, -⟩ := storRule s (s.prog.get (s.pc + 1)) (fieldAt s)
    exact hfault hlen hok hout

end Sys2Proof
end

section
/-! PROOFS. The invariant of every step and of every host command. -/

namespace Sys2Proof

/-- Settles O2, the base case. -/
theorem invHoldsAtReset : Obligations.InvHoldsAtReset := by
  unfold Obligations.InvHoldsAtReset
  exact inv_reset

/-- Settles O3: by `step_keeps_inv`, one rule of `Inv` for each case of a step. -/
theorem invKeptByStep : Obligations.InvKeptByStep := by
  unfold Obligations.InvKeptByStep
  exact fun _ _ _ hi hstep => step_keeps_inv hi hstep

/-- Settles O4: by `hostCommand_keeps_inv`, command by command. -/
theorem invKeptByHostCommand : Obligations.InvKeptByHostCommand := by
  unfold Obligations.InvKeptByHostCommand
  exact fun _ _ c hi => hostCommand_keeps_inv c hi

end Sys2Proof
end

section
/-! PROOFS. The decoder and the encoder are inverse to each other, and the opcode table gives each byte one row. -/

namespace Sys2Proof

variable {bs rest : List Byte} {i : Instr}

/-! ### The two round trips -/

/-- Constructor by constructor; the four bytes of an address or an immediate go back together by `le32_byteOf`. -/
theorem decode_encode (hwf : i.wellFormed = true) (rest : List Byte) : decode (encode i ++ rest) = .ok (i, rest) := by
  cases i with
  | hlt => rfl
  | load r addr => exact (decode_load_bytes r _ _ _ _ rest).trans (by rw [le32_byteOf])
  | mov src dst => exact decode_mov_bytes src dst rest
  | stor r addr => exact (decode_stor_bytes r _ _ _ _ rest).trans (by rw [le32_byteOf])
  | ldim r imm => exact (decode_ldim_bytes r _ _ _ _ rest).trans (by rw [le32_byteOf])
  | illegal b => exact decode_illegal (by simpa [Instr.wellFormed] using hwf) rest

/-- By the opcode byte: it fixes the tag, and the operand bytes the decoder took are the ones the encoder writes. -/
theorem encode_of_decode (h : decode bs = .ok (i, rest)) : i.wellFormed = true ∧ bs = encode i ++ rest := by
  match bs with
  | [] => cases h
  | op :: more =>
    obtain ⟨rfl, ht⟩ | ⟨rfl, ht⟩ | ⟨rfl, ht⟩ | ⟨rfl, ht⟩ | ⟨rfl, ht⟩ | ⟨hop, ht⟩ := decodeTag_cases op <;>
      simp only [decode, ht] at h
    case inl => cases h; exact ⟨rfl, rfl⟩
    case inr.inr.inl =>
      split at h <;> cases h
      exact ⟨rfl, rfl⟩
    case inr.inr.inr.inr.inr => cases h; exact ⟨by simpa [Instr.wellFormed] using hop, rfl⟩
    all_goals
      split at h <;> cases h
      exact ⟨rfl, by rw [encode, bytesLe32_le32]; rfl⟩

/-! ### The statements -/

/-- Settles O11, by `decode_encode`. -/
theorem decodeOfEncode : Obligations.DecodeOfEncode := by
  unfold Obligations.DecodeOfEncode
  exact fun _ rest hwf => decode_encode hwf rest

/-- Settles O12, by `encode_of_decode`. -/
theorem encodeOfDecode : Obligations.EncodeOfDecode := by
  unfold Obligations.EncodeOfDecode
  exact fun _ _ _ h => encode_of_decode h

/-- Settles O10: each word is the encoding of the instruction it stands for, so it decodes to it by `decode_encode`. -/
theorem specWordsDecode : Obligations.SpecWordsDecode := by
  unfold Obligations.SpecWordsDecode
  exact ⟨decode_encode (i := .hlt) rfl [], decode_encode (i := .illegal 0x05) rfl [],
    decode_encode (i := .ldim 7 0x12345678) rfl [], decode_encode (i := .load 2 1) rfl [],
    decode_encode (i := .mov 3 9) rfl [], decode_encode (i := .stor 4 2) rfl []⟩

/-- Settles O9: a closed table of 256 bytes and twelve rows, evaluated byte by byte. -/
theorem opcodeTableIsUnambiguous : Obligations.OpcodeTableIsUnambiguous := by
  unfold Obligations.OpcodeTableIsUnambiguous
  decide

end Sys2Proof
end

section
/-! PROOFS. The step: which instruction it runs, what it leaves unchanged, how far it moves pc, and why every run
ends. -/

namespace Sys2Proof

open Machine

variable {s t : State} {i : Instr} {rest : List Byte} {j k : Fin numRegs} {v : Word} {n : Nat}

/-! ### The instruction at pc -/

/-- A complete instruction has its opcode byte in the program buffer. -/
theorem pc_lt_of_len_le (hlen : s.pc + (decodeTag (opcodeAt s)).len ≤ s.prog.len) : s.pc < s.prog.len :=
  (Nat.lt_add_of_pos_right (Tag.len_pos _)).trans_le hlen

/-- An instruction has at least its opcode byte, and the longest fits the fetch window (R63, R112). -/
theorem encode_length_bounds (i : Instr) : 0 < (encode i).length ∧ (encode i).length ≤ 6 := by
  cases i <;> simp [encode, bytesLe32]

/-- The bytes of an instruction stand at pc exactly when the fetched bytes begin with them. -/
theorem instrAt_iff_prefix : InstrAt s i ↔ encode i <+: s.fetchBytes := by
  obtain ⟨hpos, hmax⟩ := encode_length_bounds i
  have hget (k : Nat) (hk : k < s.fetchBytes.length) : s.fetchBytes[k] = s.prog.get (s.pc + k) :=
    window_getElem _ _ _ _ hk
  have hlen : s.pc + (encode i).length ≤ s.prog.len ↔ (encode i).length ≤ s.fetchBytes.length := by
    rw [fetchBytes_length]
    omega
  rw [List.prefix_iff_getElem, InstrAt, hlen, ← exists_prop]
  refine exists_congr fun hle => forall₂_congr fun k hk => ?_
  rw [hget, eq_comm]

/-- A well-formed instruction stands at pc exactly when the decoder reads it there. -/
theorem instrAt_iff_decode :
    i.wellFormed = true ∧ InstrAt s i ↔ ∃ rest, decode s.fetchBytes = .ok (i, rest) := by
  rw [instrAt_iff_prefix]
  constructor
  · rintro ⟨hwf, rest, hbytes⟩
    exact ⟨rest, hbytes ▸ decode_encode hwf rest⟩
  · rintro ⟨rest, hd⟩
    obtain ⟨hwf, hbytes⟩ := encode_of_decode hd
    exact ⟨hwf, rest, hbytes.symm⟩

theorem step_of_decode (h : s.status.state = .running) (hd : decode s.fetchBytes = .ok (i, rest)) :
    step s = exec i s := by
  rw [step_running h, cycle, hd]

theorem step_of_instrAt (h : s.status.state = .running) (hwf : i.wellFormed = true) (hat : InstrAt s i) :
    step s = exec i s := by
  obtain ⟨rest, hd⟩ := instrAt_iff_decode.1 ⟨hwf, hat⟩
  exact step_of_decode h hd

/-! ### What a step changes -/

theorem eq_of_setReg_advance_reg_ne (h : ((s.setReg k v).advance n).reg j ≠ s.reg j) : j = k := by
  by_contra hne
  rw [advance_reg, setReg_reg, if_neg hne] at h
  exact h rfl

theorem mem_of_get_write32_ne {m : Memory} {a y : Nat} (hb : m.inBounds a) (h : (m.write32 a v).get y ≠ m.get y) :
    a ≤ y ∧ y < a + 4 := by
  by_contra hout
  exact h (get_write32_outside hb v (by omega))

/-- A step that goes on has run one of the four instructions with operands, so it moves pc by at least 3, and no further
than the end of the program. -/
theorem step_goes_on (hstep : step s = .next t) (h : s.status.state = .running) (h' : t.status.state = .running) :
    s.pc + 3 ≤ t.pc ∧ t.pc ≤ t.prog.len ∧ t.prog = s.prog := by
  cases step_inv hstep with
  | idle hidle => exact absurd h hidle
  | exhausted | illegal | truncated | badRegister | outOfBounds | hlt => simp at h'
  | load _ hlen | mov _ hlen | stor _ hlen | ldim _ hlen => simpa using hlen

/-- A run with bound at most `n` ends within `n` steps: a step that does not end it lowers the bound. -/
theorem run_ends_of_stepBound_le (n : Nat) : ∀ s : State, s.status.state = .running → stepBound s ≤ n →
    ∃ k t, k ≤ n ∧ Host.Core.run Sys2Proof.core k s = .next t ∧ t.status.state.terminal = true := by
  induction n with
  | zero => exact fun s _ hn => absurd hn (Nat.not_succ_le_zero _)
  | succ n ih =>
    intro s h hn
    obtain ⟨t, hstep, -⟩ := step_cases s
    obtain hend | hkeep := step_ends_or_keeps_status h hstep
    · exact ⟨1, t, by omega, run_of_step hstep, hend⟩
    · have h' : t.status.state = .running := by rw [hkeep, h]
      obtain ⟨hpc, hle, hprog⟩ := step_goes_on hstep h h'
      have hbound : stepBound t ≤ n := by
        unfold stepBound at hn ⊢
        rw [hprog] at hle ⊢
        omega
      obtain ⟨k, u, hk, hrun, hend⟩ := ih t h' hbound
      exact ⟨k + 1, u, by omega, (run_of_step hstep).trans hrun, hend⟩

/-! ### The statements -/

/-- Settles O32, by `step_idle`. -/
theorem noStepUnlessRunning : Obligations.NoStepUnlessRunning := by
  unfold Obligations.NoStepUnlessRunning
  exact fun _ h => step_idle h

/-- Settles O34, by `step_of_decode`. -/
theorem stepRunsDecodedInstruction : Obligations.StepRunsDecodedInstruction := by
  unfold Obligations.StepRunsDecodedInstruction
  exact fun _ _ _ h hd => step_of_decode h hd

/-- Settles O35: the fetched bytes begin with the instruction's, and the decoder gives it back. -/
theorem stepRunsEncodedInstruction : Obligations.StepRunsEncodedInstruction := by
  unfold Obligations.StepRunsEncodedInstruction
  exact fun _ _ h hwf hat => step_of_instrAt h hwf hat

/-- Settles O36, by the cases of a step: STOR alone writes data, within the reach of a word store; LOAD, MOV and LDIM
write one register. -/
theorem onlyNamedElementsChange : Obligations.OnlyNamedElementsChange := by
  unfold Obligations.OnlyNamedElementsChange
  intro s t hstep
  cases step_inv hstep with
  | idle | exhausted | illegal | truncated | badRegister | outOfBounds | hlt =>
    exact ⟨rfl, rfl, fun _ hne => absurd rfl hne, fun _ hne => absurd rfl hne⟩
  | load _ _ op i hi =>
    refine ⟨rfl, rfl, fun _ hne => absurd rfl hne, fun j hne => .inl ⟨.inl op, ?_⟩⟩
    rw [eq_of_setReg_advance_reg_ne hne, hi]
  | ldim _ _ op i hi =>
    refine ⟨rfl, rfl, fun _ hne => absurd rfl hne, fun j hne => .inl ⟨.inr op, ?_⟩⟩
    rw [eq_of_setReg_advance_reg_ne hne, hi]
  | mov _ _ op _ i _ hi =>
    refine ⟨rfl, rfl, fun _ hne => absurd rfl hne, fun j hne => .inr ⟨op, ?_⟩⟩
    rw [eq_of_setReg_advance_reg_ne hne, hi]
  | stor _ _ op _ _ hb =>
    exact ⟨rfl, write32_len .., fun _ hne => ⟨op, mem_of_get_write32_ne hb hne⟩, fun _ hne => absurd rfl hne⟩

/-- Settles O37, by the cases of a step: exhaustion and a fault have their own disjunct, and an instruction that
completes moves pc by the length of its opcode's tag. -/
theorem pcAdvancesByLength : Obligations.PcAdvancesByLength := by
  unfold Obligations.PcAdvancesByLength
  intro s t hstep
  cases step_inv hstep with
  | idle hidle => exact ⟨le_rfl, fun h => absurd h hidle, fun _ => rfl⟩
  | exhausted h => exact ⟨le_rfl, fun _ => .inl ⟨rfl, rfl⟩, fun hidle => absurd h hidle⟩
  | illegal h | truncated h | badRegister h | outOfBounds h =>
    exact ⟨Nat.le_succ _, fun _ => .inr (.inl ⟨rfl, rfl⟩), fun hidle => absurd h hidle⟩
  | hlt h _ op =>
    exact ⟨Nat.le_add_right _ _, fun _ => .inr (.inr ⟨by simp, by simp, by rw [op]; rfl⟩), fun hidle => absurd h hidle⟩
  | load h _ op | mov h _ op | stor h _ op | ldim h _ op =>
    exact ⟨Nat.le_add_right _ _, fun _ => .inr (.inr ⟨by simp [h], by simp [h], by rw [op]; rfl⟩),
      fun hidle => absurd h hidle⟩

/-- Settles O39: a step that goes on moves pc by 3 or more inside the program, so it lowers the bound of R114 by 1. -/
theorem everyRunEnds : Obligations.EveryRunEnds := by
  unfold Obligations.EveryRunEnds
  exact ⟨fun _ _ hstep h h' => (step_goes_on hstep h h').1,
    fun s h => run_ends_of_stepBound_le (stepBound s) s h le_rfl⟩

end Sys2Proof
end

section
/-! PROOFS. Faults: their order, how little they change, and when none is taken. -/

namespace Sys2Proof

open Machine

variable {s t : State} {i : Instr} {r b : Byte} {addr : Word}

theorem decodeTag_eq_illegal_iff : decodeTag b = .illegal ↔ 5 ≤ b.toNat := by
  refine ⟨fun h => ?_, decodeTag_illegal⟩
  obtain ⟨-, ht⟩ | ⟨-, ht⟩ | ⟨-, ht⟩ | ⟨-, ht⟩ | ⟨-, ht⟩ | ⟨hb, -⟩ := decodeTag_cases b
  case inr.inr.inr.inr.inr => exact hb
  all_goals rw [ht] at h; cases h

/-- A step is determined, so what some next state meets, this one meets. -/
theorem of_step_next {P : State → Prop} (hstep : step s = .next t) (h : ∃ u, step s = .next u ∧ P u) : P t := by
  obtain ⟨u, hu, hP⟩ := h
  cases hstep.symm.trans hu
  exact hP

/-- With 2^32 bytes of data at most, the bounds sum of the three highest addresses is past the end (R48, D7). -/
theorem exec_access_highest_faults (h : i = .load r addr ∨ i = .stor r addr) (hdata : s.data.len ≤ 2 ^ 32)
    (haddr : 2 ^ 32 - 3 ≤ addr.toNat) (hpc : s.pc + 6 ≤ s.prog.len) (hr : r.toNat < 32) :
    ∃ t, exec i s = .next t ∧ FaultTaken .dataAddressOutOfBounds s t := by
  obtain ⟨-, -, hfault⟩ := exec_access_faults h s
  exact hfault hpc hr (by omega)

/-- LOAD and STOR keep STATUS when their three checks pass, and fault otherwise. -/
theorem exec_access_not_faulted_iff (h : i = .load r addr ∨ i = .stor r addr) (hrun : s.status.state = .running)
    (he : exec i s = .next t) :
    t.status.state ≠ .faulted ↔ s.pc + 6 ≤ s.prog.len ∧ validReg r ∧ s.data.inBounds addr.toNat := by
  obtain ⟨ht, he'⟩ | ⟨-, hr, he'⟩ | ⟨-, -, hb, he'⟩ | ⟨hlen, hv, hb⟩ := exec_access_cases h s
  · cases he.symm.trans he'
    exact iff_of_false (by simp) fun ⟨hlen, _⟩ => not_le.2 ht hlen
  · cases he.symm.trans he'
    exact iff_of_false (by simp) fun ⟨_, hv, _⟩ => hr hv
  · cases he.symm.trans he'
    exact iff_of_false (by simp) fun ⟨_, _, hin⟩ => hb hin
  · refine iff_of_true ?_ ⟨hlen, hv, hb⟩
    obtain rfl | rfl := h
    · cases he.symm.trans (exec_load_completes hlen hv hb)
      simp [hrun]
    · cases he.symm.trans (exec_stor_completes hlen hv hb)
      simp [hrun]

/-- An instruction run in RUNNING, at an opcode byte, keeps out of FAULTED exactly when it meets its duties (R259). -/
theorem exec_not_faulted_iff (h : s.status.state = .running) (hpc : s.pc < s.prog.len) (he : exec i s = .next t) :
    t.status.state ≠ .faulted ↔ FaultFree s i := by
  cases i with
  | hlt => cases he; exact iff_of_true (by simp) hpc
  | illegal op => cases he; exact iff_of_false (by simp) id
  | load r addr => exact exec_access_not_faulted_iff (.inl rfl) h he
  | stor r addr => exact exec_access_not_faulted_iff (.inr rfl) h he
  | ldim r imm =>
    obtain ⟨ht, he'⟩ | ⟨-, hr, he'⟩ | ⟨hlen, j, hj, he'⟩ := execLdim_cases r imm s <;> cases he.symm.trans he'
    · exact iff_of_false (by simp) fun ⟨hlen, _⟩ => not_le.2 ht hlen
    · exact iff_of_false (by simp) fun ⟨_, hv⟩ => hr hv
    · exact iff_of_true (by simp [h]) ⟨hlen, hj.symm.trans_lt j.isLt⟩
  | mov src dst =>
    obtain ⟨ht, he'⟩ | ⟨-, hbad, he'⟩ | ⟨hlen, j, k, hj, hk, he'⟩ := execMov_cases src dst s <;>
      cases he.symm.trans he'
    · exact iff_of_false (by simp) fun ⟨hlen, _⟩ => not_le.2 ht hlen
    · exact iff_of_false (by simp) fun ⟨_, hs, hd⟩ => not_or.2 ⟨not_not.2 hs, not_not.2 hd⟩ hbad
    · exact iff_of_true (by simp [h]) ⟨hlen, hj.symm.trans_lt j.isLt, hk.symm.trans_lt k.isLt⟩

/-! ### The statements -/

/-- Settles O27: LOAD and STOR alike, by `exec_access_highest_faults`. -/
theorem highestAddressesAlwaysFault : Obligations.HighestAddressesAlwaysFault := by
  unfold Obligations.HighestAddressesAlwaysFault
  intro s r addr hdata haddr hpc hr
  exact ⟨exec_access_highest_faults (.inl rfl) hdata haddr hpc hr,
    exec_access_highest_faults (.inr rfl) hdata haddr hpc hr⟩

/-- Settles O28: each of the four faults by its own rule, whose condition excludes the earlier ones; with none of the
conditions met, the cases of a step that remain do not end in FAULTED. -/
theorem faultPriority : Obligations.FaultPriority := by
  unfold Obligations.FaultPriority
  intro s h hpc
  obtain ⟨t, hstep, hcase⟩ := step_cases s
  refine ⟨t, hstep, fun hill => ?_, fun hdef hlen => ?_, fun hlen hbad => ?_, fun hlen hok hoob => ?_,
    fun hdef hlen hok hin => ?_⟩
  · obtain ⟨u, hu, htaken, -⟩ := illegalOpcodeFault s h hpc (decodeTag_eq_illegal_iff.1 hill)
    exact of_step_next hstep ⟨u, hu, htaken⟩
  · exact of_step_next hstep (truncatedInstructionFault s h hpc hdef hlen)
  · exact of_step_next hstep (registerIndexFault s h hlen hbad)
  · exact of_step_next hstep (dataAddressFault s h hlen hok hoob)
  · cases hcase with
    | illegal _ _ hop => exact absurd (decodeTag_illegal hop) hdef
    | truncated _ _ _ hshort => exact absurd hlen (not_le.2 hshort)
    | badRegister _ _ hbad => exact absurd hbad hok
    | outOfBounds _ _ _ hoob => exact absurd hoob hin
    | exhausted | hlt => simp
    | idle | load | mov | stor | ldim => simp [h]

/-- Settles O29: the four cases of a step that end in FAULTED are the fault action, each at an opcode byte. -/
theorem faultIsPrecise : Obligations.FaultIsPrecise := by
  unfold Obligations.FaultIsPrecise
  intro s t h hstep hfault
  cases step_inv hstep with
  | illegal _ hpc | truncated _ hpc => exact ⟨hpc, _, rfl⟩
  | badRegister _ hlen => exact ⟨pc_lt_of_len_le hlen, _, rfl⟩
  | outOfBounds _ hlen => exact ⟨by omega, _, rfl⟩
  | exhausted | hlt => simp at hfault
  | idle | load | mov | stor | ldim => simp [h] at hfault

/-- Settles O31: a well-formed instruction stands at pc exactly when the decoder reads it, and its step, `exec` of it,
is free of faults exactly when it meets its duties. -/
theorem noFaultExactlyWhenDutiesMet : Obligations.NoFaultExactlyWhenDutiesMet := by
  unfold Obligations.NoFaultExactlyWhenDutiesMet
  intro s h hpc
  obtain ⟨t, hstep, -⟩ := step_cases s
  refine ⟨t, hstep, ?_⟩
  constructor
  · intro hok
    have hlen : s.pc + (decodeTag (opcodeAt s)).len ≤ s.prog.len := by
      by_contra hshort
      cases hstep.symm.trans (step_of_truncated h hpc (not_le.1 hshort))
      exact hok (takeFault_state s _)
    obtain ⟨rest, hd⟩ := decode_fetchBytes hpc hlen
    obtain ⟨hwf, hat⟩ := instrAt_iff_decode.2 ⟨rest, hd⟩
    exact ⟨_, hwf, hat, (exec_not_faulted_iff h hpc ((step_of_decode h hd).symm.trans hstep)).1 hok⟩
  · rintro ⟨i, hwf, hat, hfree⟩
    exact (exec_not_faulted_iff h hpc ((step_of_instrAt h hwf hat).symm.trans hstep)).2 hfree

end Sys2Proof
end

section
/-! PROOFS. The host's side: the layout of STATUS, each command accepted and refused, the boot sequence and the result
of a run. -/

namespace Sys2Proof

open Machine

variable {s t : State} {i : Instr} {bs ps ds : List Byte} {m n : Memory} {k : Nat} {v : Word}

/-! ### The layout of STATUS -/

theorem toByte_state_field (st : Status) : st.toByte.extractLsb' 0 3 = st.state.code :=
  BitVec.extractLsb'_append_eq_right

theorem toByte_cause_field (st : Status) : st.toByte.extractLsb' 3 3 = causeCode st.cause :=
  (BitVec.extractLsb'_append_eq_of_le (by decide)).trans BitVec.extractLsb'_append_eq_right

theorem toByte_upper_field (st : Status) : st.toByte.extractLsb' 6 2 = 0 :=
  (BitVec.extractLsb'_append_eq_of_le (by decide)).trans BitVec.extractLsb'_append_eq_left

/-- The STATUS that a byte stands for; of the codes that never occur nothing is asked (R31). -/
def statusOfByte (b : Byte) : Status where
  state :=
    match (b.extractLsb' 0 3).toNat with
    | 1 => .running
    | 2 => .halted
    | 3 => .exhausted
    | 4 => .faulted
    | _ => .ready
  cause :=
    match (b.extractLsb' 3 3).toNat with
    | 1 => some .illegalOpcode
    | 2 => some .truncatedInstruction
    | 3 => some .registerIndexOutOfRange
    | 4 => some .dataAddressOutOfBounds
    | _ => none

theorem statusOfByte_toByte (st : Status) : statusOfByte st.toByte = st := by
  obtain ⟨state, cause⟩ := st
  simp only [statusOfByte, toByte_state_field, toByte_cause_field, Status.mk.injEq]
  constructor
  · cases state <;> rfl
  · cases cause with
    | none => rfl
    | some c => cases c <;> rfl

/-! ### Buffers the host loads -/

/-- Read hands back a loaded buffer as it was given. -/
@[simp] theorem toBytes_ofBytes (bs : List Byte) : (Memory.ofBytes bs).toBytes = bs := by
  refine List.ext_getElem (toBytes_length _) fun k hk hk' => ?_
  rw [toBytes_getElem, get_ofBytes _ _ hk']

/-- Canonical buffers with the same bytes are equal. -/
theorem SameBytes.eq (h : SameBytes m n) (hm : m.wf) (hn : n.wf) : n = m :=
  Memory.ext_of_wf hn hm h.1 h.2

/-! ### The commands, accepted and refused -/

theorem hostLoadProgram_refused (p : Params) (h : ¬ (s.status.state = .ready ∧ bs.length ≤ p.maxProgLen)) :
    hostCommand p (.loadProgram bs) s = (s, .refused) := if_neg h

theorem hostLoadData_refused (p : Params) (h : ¬ (s.status.state ≠ .running ∧ bs.length ≤ maxDataLen)) :
    hostCommand p (.loadData bs) s = (s, .refused) := if_neg h

theorem hostWriteReg_idle (p : Params) (h : s.status.state ≠ .running) (hk : k < numRegs) :
    hostCommand p (.writeReg k v) s = (s.setReg ⟨k, hk⟩ v, .done) := by
  simp only [hostCommand, hostWriteReg, hk, h, dite_true, ne_eq, not_false_eq_true, if_true]

theorem hostWriteReg_refused (p : Params) (h : s.status.state = .running ∨ numRegs ≤ k) :
    hostCommand p (.writeReg k v) s = (s, .refused) := by
  simp only [hostCommand, hostWriteReg]
  obtain h | h := h
  · simp [h]
  · rw [dif_neg (not_lt.2 h)]

theorem hostStart_accepted (p : Params)
    (h : s.status.state = .ready ∨ s.status.state = .halted ∨ s.status.state = .exhausted) :
    hostCommand p .start s = ({ s with status := { state := .running, cause := none } }, .done) := by
  obtain h | h | h := h <;> simp only [hostCommand, hostStart, h]

/-- Exhaustion undoes a Start from EXHAUSTED. -/
theorem exhaust_start (h : s.status = { state := .exhausted, cause := none }) :
    exhaust { s with status := { state := .running, cause := none } } = s := by
  cases s
  cases h
  rfl

theorem hostStart_refused (p : Params) (h : s.status.state = .faulted ∨ s.status.state = .running) :
    hostCommand p .start s = (s, .refused) := by
  obtain h | h := h <;> simp only [hostCommand, hostStart, h]

theorem hostRead_idle (p : Params) (h : s.status.state ≠ .running) :
    hostCommand p .read s = (s, .view s.view) := if_pos h

theorem hostRead_running (p : Params) (h : s.status.state = .running) :
    hostCommand p .read s = (s, .refused) := if_neg (not_not.2 h)

/-- While RUNNING the host can only reset (R254). -/
theorem hostCommand_running (p : Params) (c : HostCommand) (h : s.status.state = .running) (hc : c ≠ .reset) :
    hostCommand p c s = (s, .refused) := by
  cases c with
  | reset => exact absurd rfl hc
  | loadProgram bs => exact hostLoadProgram_refused p (by simp [h])
  | loadData bs => exact hostLoadData_refused p (by simp [h])
  | writeReg k v => exact hostWriteReg_refused p (.inl h)
  | start => exact hostStart_refused p (.inr h)
  | read => exact hostRead_running p h

theorem hostCommand_fst_of_refused (p : Params) (c : HostCommand) (h : (hostCommand p c s).2 = .refused) :
    (hostCommand p c s).1 = s := by
  cases c with
  | reset => cases h
  | loadProgram bs =>
    by_cases hok : s.status.state = .ready ∧ bs.length ≤ p.maxProgLen
    · rw [hostLoadProgram_ready p s bs hok.1 hok.2] at h
      cases h
    · rw [hostLoadProgram_refused p hok]
  | loadData bs =>
    by_cases hok : s.status.state ≠ .running ∧ bs.length ≤ maxDataLen
    · rw [hostLoadData_idle p s bs hok.1 hok.2] at h
      cases h
    · rw [hostLoadData_refused p hok]
  | writeReg k v =>
    by_cases hok : s.status.state ≠ .running ∧ k < numRegs
    · rw [hostWriteReg_idle p hok.1 hok.2] at h
      cases h
    · rw [hostWriteReg_refused p (by simpa only [not_and_or, not_not, not_lt] using hok)]
  | start =>
    cases hr : s.status.state with
    | ready | halted | exhausted =>
      rw [hostStart_accepted p (by simp [hr])] at h
      cases h
    | faulted | running => rw [hostStart_refused p (by simp [hr])]
  | read => simp only [hostCommand, hostRead]; split <;> rfl

/-! ### The boot sequence -/

theorem hostCommands_append (p : Params) (cs cs' : List HostCommand) (s : State) :
    hostCommands p (cs ++ cs') s = hostCommands p cs' (hostCommands p cs s) := by
  induction cs generalizing s with
  | nil => rfl
  | cons c cs ih => exact ih _

/-- The core with both buffers loaded after a reset. -/
def loaded (ps ds : List Byte) : State := { State.reset with prog := .ofBytes ps, data := .ofBytes ds }

/-- The core at the start of the run that the boot sequence begins. -/
def booted (ps ds : List Byte) : State := { loaded ps ds with status := { state := .running, cause := none } }

/-- Reset makes the core READY, so both buffers are taken. -/
theorem hostCommands_load (p : Params) (s : State) (hp : ps.length ≤ p.maxProgLen) (hd : ds.length ≤ maxDataLen) :
    hostCommands p [.reset, .loadProgram ps, .loadData ds] s = loaded ps ds := by
  change (hostCommand p (.loadData ds) (hostCommand p (.loadProgram ps) State.reset).1).1 = _
  rw [hostLoadProgram_ready _ _ _ rfl hp, hostLoadData_idle _ _ _ (by simp [State.reset]) hd]
  rfl

theorem hostCommands_boot (p : Params) (s : State) (hp : ps.length ≤ p.maxProgLen) (hd : ds.length ≤ maxDataLen) :
    hostCommands p (bootCommands ps ds) s = booted ps ds := by
  change hostCommands p ([.reset, .loadProgram ps, .loadData ds] ++ [.start]) s = _
  rw [hostCommands_append, hostCommands_load p s hp hd]
  rfl

theorem instrAt_booted (i : Instr) (rest ds : List Byte) : InstrAt (booted (encode i ++ rest) ds) i := by
  refine ⟨?_, fun k hk => ?_⟩
  · simp [booted, loaded, State.reset]
  · have hk' : k < (encode i ++ rest).length := by simp; omega
    simp only [booted, loaded, State.reset, Nat.zero_add]
    rw [get_ofBytes _ _ hk', List.getElem_append_left hk]

/-! ### The statements -/

/-- Settles O41: each field read off the byte; STATUS is read back from it by `statusOfByte`. -/
theorem statusByteLayout : Obligations.StatusByteLayout := by
  unfold Obligations.StatusByteLayout
  refine ⟨fun st => ⟨?_, ?_, toByte_upper_field st⟩, Function.LeftInverse.injective statusOfByte_toByte⟩
  · rw [toByte_state_field]
    cases st.state <;> rfl
  · rw [toByte_cause_field]
    cases st.cause with
    | none => rfl
    | some c => cases c <;> rfl

/-- Settles O42, by the definition of the command. -/
theorem resetFromAnyState : Obligations.ResetFromAnyState := by
  unfold Obligations.ResetFromAnyState
  exact fun _ _ => rfl

/-- Settles O43, command by command. -/
theorem refusedCommandsChangeNothing : Obligations.RefusedCommandsChangeNothing := by
  unfold Obligations.RefusedCommandsChangeNothing
  exact ⟨fun p _ c h hc => hostCommand_running p c h hc, fun p _ c h => hostCommand_fst_of_refused p c h⟩

/-- Settles O44: accepted, the buffer reads as its bytes; the two refusals deny one half of the precondition each. -/
theorem loadProgramCommand : Obligations.LoadProgramCommand := by
  unfold Obligations.LoadProgramCommand
  intro p s bs
  refine ⟨fun h hlen => ⟨_, hostLoadProgram_ready p s bs h hlen, rfl, fun k hk => get_ofBytes k bs hk, rfl,
    fun _ => rfl, .refl _, rfl⟩, fun hno => hostLoadProgram_refused p fun ⟨h, hlen⟩ => ?_⟩
  exact hno.elim (· h) (not_lt.2 hlen)

/-- Settles O45, in the same way for the data segment. -/
theorem loadDataCommand : Obligations.LoadDataCommand := by
  unfold Obligations.LoadDataCommand
  intro p s bs
  refine ⟨fun h hlen => ⟨_, hostLoadData_idle p s bs h hlen, rfl, fun k hk => get_ofBytes k bs hk, rfl,
    fun _ => rfl, .refl _, rfl⟩, fun hno => hostLoadData_refused p fun ⟨h, hlen⟩ => ?_⟩
  exact hno.elim h (not_lt.2 hlen)

/-- Settles O46: a register write, and its two refusals. -/
theorem writeRegCommand : Obligations.WriteRegCommand := by
  unfold Obligations.WriteRegCommand
  intro p s k v
  refine ⟨fun h hk => ⟨_, hostWriteReg_idle p h hk, fun i => ?_, rfl, rfl, .refl _, .refl _⟩,
    fun hno => hostWriteReg_refused p hno⟩
  simp only [setReg_reg, Fin.ext_iff]

/-- Settles O47: a core started at the end of its program is exhausted by its first step, which gives back the STATUS it
had before. -/
theorem startCommand : Obligations.StartCommand := by
  unfold Obligations.StartCommand
  intro p s
  refine ⟨hostStart_accepted p, hostStart_refused p, fun hst hpc => ?_⟩
  rw [hostStart_accepted p (by simp [hst])]
  have hend := step_of_prog_len_le (s := { s with status := { state := .running, cause := none } }) rfl hpc.ge
  rw [hend, exhaust_start hst]

/-- Settles O48: the view is the state's own, each buffer by `toBytes`, which gives back a loaded buffer's bytes. -/
theorem readReturnsWhatWasLoaded : Obligations.ReadReturnsWhatWasLoaded := by
  unfold Obligations.ReadReturnsWhatWasLoaded
  refine ⟨fun p s h => ⟨s.view, hostRead_idle p h, rfl, fun _ => rfl, toBytes_length _,
    fun a ha => toBytes_getElem s.prog a ha, toBytes_length _, fun a ha => toBytes_getElem s.data a ha, rfl⟩,
    fun p s h => hostRead_running p h, fun p ps ds hp hd => ?_⟩
  rw [hostCommands_load p _ hp hd]
  exact ⟨(loaded ps ds).view, hostRead_idle p (by simp [loaded, State.reset]), toBytes_ofBytes ps, toBytes_ofBytes ds,
    rfl, rfl, (by decide : State.reset.status.toByte = 0)⟩

/-- Settles O49: the instruction's bytes stand at address 0 of the booted core, and its step runs what stands at pc. -/
theorem bootRunsTheInstructionAtZero : Obligations.BootRunsTheInstructionAtZero := by
  unfold Obligations.BootRunsTheInstructionAtZero
  intro p s0 i rest ds hwf hp hd
  rw [hostCommands_boot p s0 hp hd]
  exact ⟨rfl, rfl, reset_reg, step_of_instrAt rfl hwf (instrAt_booted i rest ds)⟩

/-- Settles O50: the boot sequence leads to `booted`; a state with the same fields has equal buffers too, because
they are canonical. -/
theorem bootReachesTheStartOfARun : Obligations.BootReachesTheStartOfARun := by
  unfold Obligations.BootReachesTheStartOfARun
  intro p s ps ds hp hd
  rw [hostCommands_boot p s hp hd]
  have hprog : (booted ps ds).prog.wf := ofBytes_wf ps
  have hdata : (booted ps ds).data.wf := ofBytes_wf ds
  refine ⟨⟨rfl, rfl, reset_reg, rfl, fun k hk => get_ofBytes k ps hk, hprog, rfl, fun k hk => get_ofBytes k ds hk,
    hdata⟩, fun u hstatus hpc hreg huprog hsameprog hudata hsamedata => ?_⟩
  exact State.ext_of_reg hreg hpc (hsameprog.eq hprog huprog) (hsamedata.eq hdata hudata) hstatus

/-- Settles O51, by the run state: a result is shown in the terminal ones. -/
theorem resultOnlyAtTheEnd : Obligations.ResultOnlyAtTheEnd := by
  unfold Obligations.ResultOnlyAtTheEnd
  intro s
  constructor
  · rintro (h | h) <;> exact if_neg (by simp [h, RunState.terminal])
  · rintro (h | h | h) <;> exact if_pos (by simp [h, RunState.terminal])

end Sys2Proof
end

section
/-! PROOFS. The block-level datapath: what its fetch window holds, what its control signals commit in each case of a
step, and that it computes the step. -/

namespace Sys2Proof

open Machine

variable {s t : State} {undef : Vector Byte 6} {w : FetchWindow} {a n k : Nat} {st : Status} {b : Byte}
  {i j : Fin numRegs} {imm : Word} {c : FaultCause}

/-! ### The fetch window -/

/-- A byte of the window that exists is the program's; the undefined ones are never looked at (U7). -/
theorem fetchWindow_ib (hk : k < 6) (h : s.pc + k < s.prog.len) :
    (fetchWindow undef s).ib[k] = s.prog.get (s.pc + k) := by
  simp [fetchWindow, h]

theorem fetchWindow_opcode (hpc : s.pc < s.prog.len) : (fetchWindow undef s).ib[0] = opcodeAt s :=
  fetchWindow_ib (by decide) hpc

theorem fetchWindow_field (h : s.pc + 6 ≤ s.prog.len) : (fetchWindow undef s).field = fieldAt s := by
  unfold FetchWindow.field
  rw [fetchWindow_ib _ (by omega), fetchWindow_ib _ (by omega), fetchWindow_ib _ (by omega),
    fetchWindow_ib _ (by omega)]
  rfl

theorem Tag.len_le_six (t : Tag) : t.len ≤ 6 := by cases t <;> decide

/-- The truncation check of R112 on the window is that of R104 on the program buffer. -/
theorem le_fetchWindow_avail_iff (hn : n ≤ 6) (hpos : 0 < n) :
    n ≤ (fetchWindow undef s).avail ↔ s.pc + n ≤ s.prog.len := by
  simp only [fetchWindow]
  omega

/-- The window of a long instruction that is wholly in the program buffer. -/
theorem fetchWindow_six (undef : Vector Byte 6) (h : s.pc + 6 ≤ s.prog.len) :
    (fetchWindow undef s).ib[0] = opcodeAt s ∧ 6 ≤ (fetchWindow undef s).avail ∧
      (fetchWindow undef s).ib[1] = s.prog.get (s.pc + 1) ∧ (fetchWindow undef s).field = fieldAt s :=
  ⟨fetchWindow_opcode (by omega), (le_fetchWindow_avail_iff le_rfl (by decide)).2 h,
    fetchWindow_ib (by decide) (by omega), fetchWindow_field h⟩

/-- The window of a MOV that is wholly in the program buffer. -/
theorem fetchWindow_three (undef : Vector Byte 6) (h : s.pc + 3 ≤ s.prog.len) :
    (fetchWindow undef s).ib[0] = opcodeAt s ∧ 3 ≤ (fetchWindow undef s).avail ∧
      (fetchWindow undef s).ib[1] = s.prog.get (s.pc + 1) ∧ (fetchWindow undef s).ib[2] = s.prog.get (s.pc + 2) :=
  ⟨fetchWindow_opcode (by omega), (le_fetchWindow_avail_iff (by decide) (by decide)).2 h,
    fetchWindow_ib (by decide) (by omega), fetchWindow_ib (by decide) (by omega)⟩

/-! ### The ports -/

/-- An index below 32 passes the 5-bit port unchanged (R112). -/
theorem indexPort_toFin (hi : i.val = b.toNat) : (indexPort b).toFin = i := by
  have hlt : b.toNat < 2 ^ 5 := hi ▸ i.isLt
  apply Fin.ext
  rw [hi]
  simpa [indexPort] using Nat.mod_eq_of_lt hlt

/-! ### The control signals of a fault -/

/-- The signals of a faulting step write pc and STATUS alone, as the fault action does (R108, R113). -/
theorem commit_faultControl : commit (faultControl s.pc c) imm s = takeFault c s := rfl

theorem controlSignals_illegal (h : decodeTag w.ib[0] = .illegal) :
    controlSignals w a st n = faultControl a .illegalOpcode := by
  simp [controlSignals, h]

theorem controlSignals_truncated (h : decodeTag w.ib[0] ≠ .illegal) (hlen : w.avail < (decodeTag w.ib[0]).len) :
    controlSignals w a st n = faultControl a .truncatedInstruction := by
  simp [controlSignals, h, hlen]

/-- Control signals are a fault's, or they leave STATUS alone or halt. -/
theorem controlSignals_cases (w : FetchWindow) (a : Nat) (st : Status) (n : Nat) :
    (∃ c, controlSignals w a st n = faultControl a c) ∨ (controlSignals w a st n).statusNext = st ∨
      (controlSignals w a st n).statusNext.state = .halted := by
  cases ht : decodeTag w.ib[0] <;> simp only [controlSignals, ht, reduceCtorEq, if_true, if_false]
  case illegal => exact .inl ⟨_, rfl⟩
  case halt =>
    split
    · exact .inl ⟨_, rfl⟩
    · exact .inr (.inr rfl)
  case loadImmediate | moveRegister =>
    split
    · exact .inl ⟨_, rfl⟩
    · split
      · exact .inl ⟨_, rfl⟩
      · exact .inr (.inl rfl)
  case loadFromData | storeToData =>
    split
    · exact .inl ⟨_, rfl⟩
    · split
      · exact .inl ⟨_, rfl⟩
      · split
        · exact .inl ⟨_, rfl⟩
        · exact .inr (.inl rfl)

theorem controlSignals_badRegister (ht : decodeTag w.ib[0] = .loadImmediate ∨ decodeTag w.ib[0] = .loadFromData ∨
    decodeTag w.ib[0] = .storeToData) (hlen : 6 ≤ w.avail) (hr : ¬ validReg w.ib[1]) :
    controlSignals w a st n = faultControl a .registerIndexOutOfRange := by
  have hr : 32 ≤ w.ib[1].toNat := not_lt.1 hr
  obtain ht | ht | ht := ht <;> simp [controlSignals, ht, Tag.len, hlen.not_gt, hr]

theorem controlSignals_badRegister_mov (ht : decodeTag w.ib[0] = .moveRegister) (hlen : 3 ≤ w.avail)
    (hr : ¬ validReg w.ib[1] ∨ ¬ validReg w.ib[2]) :
    controlSignals w a st n = faultControl a .registerIndexOutOfRange := by
  have hr : 32 ≤ w.ib[1].toNat ∨ 32 ≤ w.ib[2].toNat := hr.imp not_lt.1 not_lt.1
  simp [controlSignals, ht, Tag.len, hlen.not_gt, hr]

theorem controlSignals_outOfBounds (ht : decodeTag w.ib[0] = .loadFromData ∨ decodeTag w.ib[0] = .storeToData)
    (hlen : 6 ≤ w.avail) (hr : validReg w.ib[1]) (hb : n < w.field.toNat + 4) :
    controlSignals w a st n = faultControl a .dataAddressOutOfBounds := by
  have hr : ¬ 32 ≤ w.ib[1].toNat := not_le.2 hr
  obtain ht | ht := ht <;> simp [controlSignals, ht, Tag.len, hlen.not_gt, hr, hb]

/-! ### What a completed instruction commits -/

theorem commit_halt (ht : decodeTag w.ib[0] = .halt) (hlen : 1 ≤ w.avail) :
    commit (controlSignals w s.pc s.status n) imm s = (s.advance 1).setRunState .halted := by
  simp only [controlSignals, ht, Tag.len, hlen.not_gt, reduceCtorEq, if_false]
  rfl

theorem commit_ldim (ht : decodeTag w.ib[0] = .loadImmediate) (hlen : 6 ≤ w.avail) (hi : i.val = w.ib[1].toNat) :
    commit (controlSignals w s.pc s.status n) imm s = (s.setReg i imm).advance 6 := by
  have hr : ¬ 32 ≤ w.ib[1].toNat := not_le.2 (hi ▸ i.isLt)
  simp only [controlSignals, ht, Tag.len, hlen.not_gt, ge_iff_le, hr, reduceCtorEq, if_false]
  exact congrArg (fun i => (s.setReg i imm).advance 6) (indexPort_toFin hi)

theorem commit_mov (ht : decodeTag w.ib[0] = .moveRegister) (hlen : 3 ≤ w.avail) (hi : i.val = w.ib[1].toNat)
    (hj : j.val = w.ib[2].toNat) :
    commit (controlSignals w s.pc s.status n) imm s = (s.setReg j (s.reg i)).advance 3 := by
  have hr : ¬ (32 ≤ w.ib[1].toNat ∨ 32 ≤ w.ib[2].toNat) :=
    not_or.2 ⟨not_le.2 (hi ▸ i.isLt), not_le.2 (hj ▸ j.isLt)⟩
  simp only [controlSignals, ht, Tag.len, hlen.not_gt, ge_iff_le, hr, reduceCtorEq, if_false]
  exact congrArg₂ (fun i j => (s.setReg j (s.reg i)).advance 3) (indexPort_toFin hi) (indexPort_toFin hj)

theorem commit_load (ht : decodeTag w.ib[0] = .loadFromData) (hlen : 6 ≤ w.avail) (hi : i.val = w.ib[1].toNat)
    (hb : w.field.toNat + 4 ≤ n) :
    commit (controlSignals w s.pc s.status n) imm s = (s.setReg i (s.data.read32 w.field.toNat)).advance 6 := by
  have hr : ¬ 32 ≤ w.ib[1].toNat := not_le.2 (hi ▸ i.isLt)
  simp only [controlSignals, ht, Tag.len, hlen.not_gt, ge_iff_le, hr, hb, reduceCtorEq, if_false, decide_true,
    Bool.not_true]
  exact congrArg (fun i => (s.setReg i _).advance 6) (indexPort_toFin hi)

theorem commit_stor (ht : decodeTag w.ib[0] = .storeToData) (hlen : 6 ≤ w.avail) (hi : i.val = w.ib[1].toNat)
    (hb : w.field.toNat + 4 ≤ n) :
    commit (controlSignals w s.pc s.status n) imm s = (s.store32 w.field.toNat (s.reg i)).advance 6 := by
  have hr : ¬ 32 ≤ w.ib[1].toNat := not_le.2 (hi ▸ i.isLt)
  simp only [controlSignals, ht, Tag.len, hlen.not_gt, ge_iff_le, hr, hb, reduceCtorEq, if_false, decide_true,
    Bool.not_true]
  exact congrArg (fun i => (s.store32 _ (s.reg i)).advance 6) (indexPort_toFin hi)

/-! ### The datapath computes the step -/

theorem datapathCycle_fetch (undef : Vector Byte 6) (h : s.status.state = .running) (hpc : s.pc < s.prog.len) :
    datapathCycle undef s =
      commit (controlSignals (fetchWindow undef s) s.pc s.status s.data.len) (fetchWindow undef s).field s := by
  simp [datapathCycle, h, hpc.not_ge]

/-- The index checks of R113 on the window are those of R106 at pc, for each of the four tags with a register field. -/
theorem controlSignals_of_namesBadRegister (undef : Vector Byte 6)
    (hlen : s.pc + (decodeTag (opcodeAt s)).len ≤ s.prog.len) (hbad : NamesBadRegister s) :
    controlSignals (fetchWindow undef s) a st n = faultControl a .registerIndexOutOfRange := by
  cases ht : decodeTag (opcodeAt s) <;> simp only [NamesBadRegister, ht, Tag.len] at hlen hbad
  case moveRegister =>
    obtain ⟨hop, havail, hsrc, hdst⟩ := fetchWindow_three undef hlen
    exact controlSignals_badRegister_mov (by rw [hop, ht]) havail (by rwa [hsrc, hdst])
  all_goals
    obtain ⟨hop, havail, hr, -⟩ := fetchWindow_six undef hlen
    exact controlSignals_badRegister (by simp [hop, ht]) havail (by rwa [hr])

/-- The in-bounds signal is computed from the window's field, which is the one at pc (R107, R113). -/
theorem controlSignals_of_accessesOutOfBounds (undef : Vector Byte 6) (hlen : s.pc + 6 ≤ s.prog.len)
    (hok : ¬ NamesBadRegister s) (hoob : AccessesOutOfBounds s) :
    controlSignals (fetchWindow undef s) a st s.data.len = faultControl a .dataAddressOutOfBounds := by
  obtain ⟨htag, hout⟩ := hoob
  obtain ⟨hop, havail, hr, hfield⟩ := fetchWindow_six undef hlen
  have hv : validReg (s.prog.get (s.pc + 1)) := by
    obtain ht | ht := htag <;> simpa only [NamesBadRegister, ht, not_not] using hok
  exact controlSignals_outOfBounds (by rwa [hop]) havail (by rwa [hr]) (by rwa [hfield])

/-- Each case of a step is what the datapath commits. -/
theorem datapathCycle_of_stepCase (undef : Vector Byte 6) (hcase : StepCase s t) : datapathCycle undef s = t := by
  cases hcase with
  | idle hidle => exact if_pos hidle
  | exhausted h hpc =>
    rw [datapathCycle, if_neg (not_not.2 h), if_pos hpc]
    rfl
  | illegal h hpc op =>
    rw [datapathCycle_fetch undef h hpc, controlSignals_illegal, commit_faultControl]
    rw [fetchWindow_opcode hpc, decodeTag_illegal op]
  | truncated h hpc op hlen =>
    have hop : (fetchWindow undef s).ib[0] = opcodeAt s := fetchWindow_opcode hpc
    have havail : (fetchWindow undef s).avail < (decodeTag (opcodeAt s)).len := by
      rwa [← not_le, le_fetchWindow_avail_iff (Tag.len_le_six _) (Tag.len_pos _), not_le]
    rw [datapathCycle_fetch undef h hpc, controlSignals_truncated (by rwa [hop]) (by rwa [hop]), commit_faultControl]
  | badRegister h hlen hbad =>
    rw [datapathCycle_fetch undef h (pc_lt_of_len_le hlen), controlSignals_of_namesBadRegister undef hlen hbad,
      commit_faultControl]
  | outOfBounds h hlen hok hoob =>
    rw [datapathCycle_fetch undef h (by omega), controlSignals_of_accessesOutOfBounds undef hlen hok hoob,
      commit_faultControl]
  | hlt h hpc op =>
    rw [datapathCycle_fetch undef h hpc, commit_halt]
    · rw [fetchWindow_opcode hpc, op]; rfl
    · exact (le_fetchWindow_avail_iff (by decide) (by decide)).2 hpc
  | load h hlen op i hi hb =>
    obtain ⟨hop, havail, hr, hfield⟩ := fetchWindow_six undef hlen
    rw [datapathCycle_fetch undef h (by omega),
      commit_load (by rw [hop, op]; rfl) havail (by rwa [hr]) (by rwa [hfield]), hfield]
  | mov h hlen op i j hi hj =>
    obtain ⟨hop, havail, hsrc, hdst⟩ := fetchWindow_three undef hlen
    rw [datapathCycle_fetch undef h (by omega),
      commit_mov (by rw [hop, op]; rfl) havail (by rwa [hsrc]) (by rwa [hdst])]
  | stor h hlen op i hi hb =>
    obtain ⟨hop, havail, hr, hfield⟩ := fetchWindow_six undef hlen
    rw [datapathCycle_fetch undef h (by omega),
      commit_stor (by rw [hop, op]; rfl) havail (by rwa [hr]) (by rwa [hfield]), hfield]
  | ldim h hlen op i hi =>
    obtain ⟨hop, havail, hr, hfield⟩ := fetchWindow_six undef hlen
    rw [datapathCycle_fetch undef h (by omega), commit_ldim (by rw [hop, op]; rfl) havail (by rwa [hr]), hfield]

/-! ### The statements -/

/-- Settles O52: in each case of a step the window's bytes that exist fix the control signals, and these commit the
state the step answers. -/
theorem datapathRefinesStep : Obligations.DatapathRefinesStep := by
  unfold Obligations.DatapathRefinesStep
  intro undef s
  obtain ⟨t, hstep, hcase⟩ := step_cases s
  rw [hstep, datapathCycle_of_stepCase undef hcase]

/-- Settles O53: control signals that lead to FAULTED are a fault's, with both write enables 0. -/
theorem noWriteEnableInAFaultingStep : Obligations.NoWriteEnableInAFaultingStep := by
  unfold Obligations.NoWriteEnableInAFaultingStep
  intro w a st dataLen h hfault
  obtain ⟨c, hc⟩ | hkeep | hhalt := controlSignals_cases w a st dataLen
  · rw [hc]
    exact ⟨rfl, rfl⟩
  · simp [hkeep, h] at hfault
  · simp [hhalt] at hfault

end Sys2Proof
end
